-- ==== Sys2Proof/Word.lean ====
section
/-! DEFINITION. The bit-vector types of the core (rules R7, R8, R20, R82): every stored value is an
unsigned integer of the width of its storage, and bit 0 is the least significant bit. -/

namespace Sys2Proof

/-- A memory byte, a general register, a timer: 8 bits (R8). -/
abbrev Byte := BitVec 8

/-- The opcode word, pc, I and a stack entry: 16 bits (R8, R80). -/
abbrev Word := BitVec 16

/-- A register index, the operand fields `x` and `y`: 4 bits, 0 to 15 (R82). -/
abbrev RegIdx := BitVec 4

/-- The 4-bit immediate `n` (R82). -/
abbrev Nibble := BitVec 4

/-- The 12-bit address field `nnn` (R82). -/
abbrev Addr := BitVec 12

end Sys2Proof
end

