-- ==== Sys2Proof/Machine/Flags.lean ====
section
/-! DEFINITION. The values the flag-setting instructions write to VF (rules R21, R138 to R142). VF is an ordinary
register; the order of its write is each instruction's own (R131). -/

namespace Sys2Proof.Machine

/-- 1 when the condition holds, else 0. -/
def flagByte (b : Bool) : Byte := if b then 1 else 0

/-- The carry of 8xy4: whether the sum, before it is truncated, exceeds 255 (R138). -/
def carryFlag (a b : Byte) : Byte := flagByte (decide (a.toNat + b.toNat > 255))

/-- The flag of 8xy5 and 8xy7: strict greater-than, 0 at equality (R139, R141, conflict C1). -/
def greaterFlag (a b : Byte) : Byte := flagByte (decide (a.toNat > b.toNat))

/-- The bit that 8xy6 shifts out: bit 0 (R140). -/
def lowBitFlag (a : Byte) : Byte := a &&& 1

/-- The bit that 8xyE shifts out: bit 7 (R142). -/
def highBitFlag (a : Byte) : Byte := a >>> 7

end Sys2Proof.Machine
end

