-- ==== Sys2Proof/Syntax.lean ====
section
/-! DEFINITION. The 35 instructions of the opcode map (rule R84), one constructor per row of
spec/opcode_table.json, named after the row's mnemonic. Every operand field of the row's pattern is an argument, the
ignored ones too (rule R87: `y` of 8xy6 and 8xyE, `x` of Fx30), so that no bit of a word is dropped. -/

namespace Sys2Proof

/-- An instruction with its operand fields (R82, R84). -/
inductive Instr where
  /-- 00E0, CLS: clear the display (R101). -/
  | cls
  /-- 00EE, RET: return from subroutine (R111). -/
  | ret
  /-- 1nnn, JP: jump (R112). -/
  | jp (nnn : Addr)
  /-- 2nnn, CALL: call subroutine (R113). -/
  | call (nnn : Addr)
  /-- 3xnn, SE_VX_NN: skip if Vx equals nn (R114). -/
  | seVxNn (x : RegIdx) (nn : Byte)
  /-- 4xnn, SNE_VX_NN: skip if Vx differs from nn (R115). -/
  | sneVxNn (x : RegIdx) (nn : Byte)
  /-- 5xy0, SE_VX_VY: skip if Vx equals Vy (R116). -/
  | seVxVy (x y : RegIdx)
  /-- 6xnn, LD_VX_NN: load immediate (R132). -/
  | ldVxNn (x : RegIdx) (nn : Byte)
  /-- 7xnn, ADD_VX_NN: add immediate, no flag (R133). -/
  | addVxNn (x : RegIdx) (nn : Byte)
  /-- 8xy0, LD_VX_VY: copy register (R134). -/
  | ldVxVy (x y : RegIdx)
  /-- 8xy1, OR (R135). -/
  | or (x y : RegIdx)
  /-- 8xy2, AND (R136). -/
  | and (x y : RegIdx)
  /-- 8xy3, XOR (R137). -/
  | xor (x y : RegIdx)
  /-- 8xy4, ADD_VX_VY: add with carry flag (R138). -/
  | addVxVy (x y : RegIdx)
  /-- 8xy5, SUB: Vx minus Vy (R139). -/
  | sub (x y : RegIdx)
  /-- 8xy6, SHR: shift right by one; y ignored (R140). -/
  | shr (x y : RegIdx)
  /-- 8xy7, SUBN: Vy minus Vx (R141). -/
  | subn (x y : RegIdx)
  /-- 8xyE, SHL: shift left by one; y ignored (R142). -/
  | shl (x y : RegIdx)
  /-- 9xy0, SNE_VX_VY: skip if Vx differs from Vy (R117). -/
  | sneVxVy (x y : RegIdx)
  /-- Annn, LD_I_NNN: load index register (R151). -/
  | ldINnn (nnn : Addr)
  /-- Bnnn, JP_V0: jump with offset V0 (R118). -/
  | jpV0 (nnn : Addr)
  /-- Cxnn, RND: random byte and nn (R143). -/
  | rnd (x : RegIdx) (nn : Byte)
  /-- Dxyn, DRW: draw an n-row sprite (R102). -/
  | drw (x y : RegIdx) (n : Nibble)
  /-- Ex9E, SKP: skip if key Vx is pressed (R171). -/
  | skp (x : RegIdx)
  /-- ExA1, SKNP: skip if key Vx is not pressed (R172). -/
  | sknp (x : RegIdx)
  /-- Fx07, LD_VX_DT: read delay timer (R173). -/
  | ldVxDt (x : RegIdx)
  /-- Fx0A, LD_VX_K: wait for a key (R174). -/
  | ldVxK (x : RegIdx)
  /-- Fx15, LD_DT_VX: set delay timer (R175). -/
  | ldDtVx (x : RegIdx)
  /-- Fx18, LD_ST_VX: set sound timer (R176). -/
  | ldStVx (x : RegIdx)
  /-- Fx1E, ADD_I_VX: add register to index (R152). -/
  | addIVx (x : RegIdx)
  /-- Fx29, LD_F_VX: font sprite address (R153). -/
  | ldFVx (x : RegIdx)
  /-- Fx30, LD_HF_VX: reserved, no operation; x ignored (R154, R86). -/
  | ldHfVx (x : RegIdx)
  /-- Fx33, LD_B_VX: store decimal digits (R155). -/
  | ldBVx (x : RegIdx)
  /-- Fx55, LD_MEM_VX: store registers V0 to Vx (R156). -/
  | ldMemVx (x : RegIdx)
  /-- Fx65, LD_VX_MEM: load registers V0 to Vx (R157). -/
  | ldVxMem (x : RegIdx)
deriving DecidableEq, Repr

end Sys2Proof
end

