-- ==== Sys2Proof/WellFormed.lean ====
section
/-! DEFINITION. The operand ranges of rule R82 as checks on plain numbers. A constructor of Instr holds each operand in a
bit vector of exactly its field's width, so an instruction that is out of range cannot be built; the checks here say what
those ranges are, for operands given as numbers (as an assembler line gives them, rule R89), and `Instr.wf` says that an
instruction's own operands meet them. -/

namespace Sys2Proof

/-- An operand as a plain number, with the field it stands in (R82). -/
inductive Operand where
  /-- A register index, field `x` or `y`. -/
  | reg (i : Nat)
  /-- The 4-bit immediate, field `n`. -/
  | imm4 (n : Nat)
  /-- The 8-bit immediate, field `nn`. -/
  | imm8 (nn : Nat)
  /-- The 12-bit address, field `nnn`. -/
  | addr (nnn : Nat)
deriving DecidableEq, Repr

/-- The range of each field (R82): a register index and `n` are 0 to 15, `nn` is 0 to 255, `nnn` is 0 to 4095. -/
def Operand.wf : Operand → Bool
  | .reg i => decide (i ≤ 15)
  | .imm4 n => decide (n ≤ 15)
  | .imm8 nn => decide (nn ≤ 255)
  | .addr nnn => decide (nnn ≤ 4095)

/-- The operands an instruction carries, in the order of its pattern (R84). -/
def Instr.operands : Instr → List Operand
  | .cls | .ret => []
  | .jp a | .call a | .ldINnn a | .jpV0 a => [.addr a.toNat]
  | .seVxNn x k | .sneVxNn x k | .ldVxNn x k | .addVxNn x k | .rnd x k => [.reg x.toNat, .imm8 k.toNat]
  | .seVxVy x y | .ldVxVy x y | .or x y | .and x y | .xor x y | .addVxVy x y | .sub x y | .shr x y | .subn x y
  | .shl x y | .sneVxVy x y => [.reg x.toNat, .reg y.toNat]
  | .drw x y n => [.reg x.toNat, .reg y.toNat, .imm4 n.toNat]
  | .skp x | .sknp x | .ldVxDt x | .ldVxK x | .ldDtVx x | .ldStVx x | .addIVx x | .ldFVx x | .ldHfVx x | .ldBVx x
  | .ldMemVx x | .ldVxMem x => [.reg x.toNat]

/-- An instruction is well-formed when each of its operands is in its field's range (R82). -/
def Instr.wf (i : Instr) : Bool := i.operands.all Operand.wf

end Sys2Proof
end

