-- ==== Sys2Proof/Decode.lean ====
section
/-! DEFINITION. Decoding (rules R80 to R87), total on any bytes and rejecting by name, then the encoder written from the
same table, the table itself as mask and match rows (rule R84), and the host's `decodeTableWord`. -/

namespace Sys2Proof

/-- Why no instruction was read. -/
inductive DecodeError where
  /-- The word matches no row of R84 (R85); the word itself is carried for the report of R206. -/
  | unknownOpcode (w : Word)
  /-- Fewer than the two bytes of an instruction were given (R80). -/
  | truncated
deriving DecidableEq, Repr

/-- op[15:12], the first-level opcode (R82). -/
def fieldTop (w : Word) : Nibble := w.extractLsb' 12 4

/-- op[11:8] (R82). -/
def fieldX (w : Word) : RegIdx := w.extractLsb' 8 4

/-- op[7:4] (R82). -/
def fieldY (w : Word) : RegIdx := w.extractLsb' 4 4

/-- op[3:0] (R82). -/
def fieldN (w : Word) : Nibble := w.extractLsb' 0 4

/-- op[7:0] (R82). -/
def fieldNn (w : Word) : Byte := w.extractLsb' 0 8

/-- op[11:0] (R82). -/
def fieldNnn (w : Word) : Addr := w.extractLsb' 0 12

/-- The second level of top 8: bits 3:0 (R83, R84). -/
def decode8 (w : Word) : Except DecodeError Instr :=
  match fieldN w with
  | 0x0#4 => .ok (.ldVxVy (fieldX w) (fieldY w))
  | 0x1#4 => .ok (.or (fieldX w) (fieldY w))
  | 0x2#4 => .ok (.and (fieldX w) (fieldY w))
  | 0x3#4 => .ok (.xor (fieldX w) (fieldY w))
  | 0x4#4 => .ok (.addVxVy (fieldX w) (fieldY w))
  | 0x5#4 => .ok (.sub (fieldX w) (fieldY w))
  | 0x6#4 => .ok (.shr (fieldX w) (fieldY w))
  | 0x7#4 => .ok (.subn (fieldX w) (fieldY w))
  | 0xE#4 => .ok (.shl (fieldX w) (fieldY w))
  | _ => .error (.unknownOpcode w)

/-- The second level of top F: bits 7:0 (R83, R84). -/
def decodeF (w : Word) : Except DecodeError Instr :=
  match fieldNn w with
  | 0x07#8 => .ok (.ldVxDt (fieldX w))
  | 0x0A#8 => .ok (.ldVxK (fieldX w))
  | 0x15#8 => .ok (.ldDtVx (fieldX w))
  | 0x18#8 => .ok (.ldStVx (fieldX w))
  | 0x1E#8 => .ok (.addIVx (fieldX w))
  | 0x29#8 => .ok (.ldFVx (fieldX w))
  | 0x30#8 => .ok (.ldHfVx (fieldX w))
  | 0x33#8 => .ok (.ldBVx (fieldX w))
  | 0x55#8 => .ok (.ldMemVx (fieldX w))
  | 0x65#8 => .ok (.ldVxMem (fieldX w))
  | _ => .error (.unknownOpcode w)

/-- The decoder: a two-level dispatch on the top 4 bits, then on the whole word (top 0), on bits 3:0 (tops 5, 8, 9) or on
bits 7:0 (tops E, F); the patterns are exact (R83, R84, conflict C5). -/
def decode (w : Word) : Except DecodeError Instr :=
  match fieldTop w with
  | 0x0#4 => if w = 0x00E0#16 then .ok .cls else if w = 0x00EE#16 then .ok .ret else .error (.unknownOpcode w)
  | 0x1#4 => .ok (.jp (fieldNnn w))
  | 0x2#4 => .ok (.call (fieldNnn w))
  | 0x3#4 => .ok (.seVxNn (fieldX w) (fieldNn w))
  | 0x4#4 => .ok (.sneVxNn (fieldX w) (fieldNn w))
  | 0x5#4 => if fieldN w = 0 then .ok (.seVxVy (fieldX w) (fieldY w)) else .error (.unknownOpcode w)
  | 0x6#4 => .ok (.ldVxNn (fieldX w) (fieldNn w))
  | 0x7#4 => .ok (.addVxNn (fieldX w) (fieldNn w))
  | 0x8#4 => decode8 w
  | 0x9#4 => if fieldN w = 0 then .ok (.sneVxVy (fieldX w) (fieldY w)) else .error (.unknownOpcode w)
  | 0xA#4 => .ok (.ldINnn (fieldNnn w))
  | 0xB#4 => .ok (.jpV0 (fieldNnn w))
  | 0xC#4 => .ok (.rnd (fieldX w) (fieldNn w))
  | 0xD#4 => .ok (.drw (fieldX w) (fieldY w) (fieldN w))
  | 0xE#4 =>
    if fieldNn w = 0x9E#8 then .ok (.skp (fieldX w))
    else if fieldNn w = 0xA1#8 then .ok (.sknp (fieldX w))
    else .error (.unknownOpcode w)
  | _ => decodeF w

/-- The opcode word of two bytes, the one at the lower address high: `hi ++ lo`, that is `hi * 256 + lo` (R11, R53). -/
def wordOfBytes (hi lo : Byte) : Word := BitVec.ofNat 16 (hi.toNat * 256 + lo.toNat)

/-- The byte of the word that stands at the lower address: bits 15:8 (R53). -/
def highByte (w : Word) : Byte := w.extractLsb' 8 8

/-- The byte of the word that stands at the higher address: bits 7:0 (R53). -/
def lowByte (w : Word) : Byte := w.extractLsb' 0 8

/-- Decoding from bytes in address order: the instruction and the bytes after it, which are always two bytes on (R80). -/
def decodeBytes : List Byte → Except DecodeError (Instr × List Byte)
  | hi :: lo :: rest =>
    match decode (wordOfBytes hi lo) with
    | .ok i => .ok (i, rest)
    | .error e => .error e
  | _ => .error .truncated

/-- Format A: top digit and address, `top ++ nnn` with `++` as R11 defines it (R81). -/
def encodeA (top : Nibble) (nnn : Addr) : Word := BitVec.ofNat 16 (top.toNat * 4096 + nnn.toNat)

/-- Format I: top digit, register, 8-bit immediate, `top ++ x ++ nn`; format X has the function code in that place (R81). -/
def encodeI (top : Nibble) (x : RegIdx) (nn : Byte) : Word :=
  BitVec.ofNat 16 (top.toNat * 4096 + x.toNat * 256 + nn.toNat)

/-- Formats R and D: top digit, two registers and the last digit, `top ++ x ++ y ++ n` (R81). -/
def encodeR (top : Nibble) (x y : RegIdx) (n : Nibble) : Word :=
  BitVec.ofNat 16 (top.toNat * 4096 + x.toNat * 256 + y.toNat * 16 + n.toNat)

/-- The word of an instruction, from the patterns of R84. -/
def encode : Instr → Word
  | .cls => 0x00E0
  | .ret => 0x00EE
  | .jp nnn => encodeA 0x1 nnn
  | .call nnn => encodeA 0x2 nnn
  | .seVxNn x nn => encodeI 0x3 x nn
  | .sneVxNn x nn => encodeI 0x4 x nn
  | .seVxVy x y => encodeR 0x5 x y 0x0
  | .ldVxNn x nn => encodeI 0x6 x nn
  | .addVxNn x nn => encodeI 0x7 x nn
  | .ldVxVy x y => encodeR 0x8 x y 0x0
  | .or x y => encodeR 0x8 x y 0x1
  | .and x y => encodeR 0x8 x y 0x2
  | .xor x y => encodeR 0x8 x y 0x3
  | .addVxVy x y => encodeR 0x8 x y 0x4
  | .sub x y => encodeR 0x8 x y 0x5
  | .shr x y => encodeR 0x8 x y 0x6
  | .subn x y => encodeR 0x8 x y 0x7
  | .shl x y => encodeR 0x8 x y 0xE
  | .sneVxVy x y => encodeR 0x9 x y 0x0
  | .ldINnn nnn => encodeA 0xA nnn
  | .jpV0 nnn => encodeA 0xB nnn
  | .rnd x nn => encodeI 0xC x nn
  | .drw x y n => encodeR 0xD x y n
  | .skp x => encodeI 0xE x 0x9E
  | .sknp x => encodeI 0xE x 0xA1
  | .ldVxDt x => encodeI 0xF x 0x07
  | .ldVxK x => encodeI 0xF x 0x0A
  | .ldDtVx x => encodeI 0xF x 0x15
  | .ldStVx x => encodeI 0xF x 0x18
  | .addIVx x => encodeI 0xF x 0x1E
  | .ldFVx x => encodeI 0xF x 0x29
  | .ldHfVx x => encodeI 0xF x 0x30
  | .ldBVx x => encodeI 0xF x 0x33
  | .ldMemVx x => encodeI 0xF x 0x55
  | .ldVxMem x => encodeI 0xF x 0x65

/-- An instruction's two bytes in address order (R53). -/
def encodeBytes (i : Instr) : List Byte := [highByte (encode i), lowByte (encode i)]

/-- The table id of an instruction's row (R84, R89). -/
def Instr.mnemonic : Instr → String
  | .cls => "CLS"
  | .ret => "RET"
  | .jp _ => "JP"
  | .call _ => "CALL"
  | .seVxNn _ _ => "SE_VX_NN"
  | .sneVxNn _ _ => "SNE_VX_NN"
  | .seVxVy _ _ => "SE_VX_VY"
  | .ldVxNn _ _ => "LD_VX_NN"
  | .addVxNn _ _ => "ADD_VX_NN"
  | .ldVxVy _ _ => "LD_VX_VY"
  | .or _ _ => "OR"
  | .and _ _ => "AND"
  | .xor _ _ => "XOR"
  | .addVxVy _ _ => "ADD_VX_VY"
  | .sub _ _ => "SUB"
  | .shr _ _ => "SHR"
  | .subn _ _ => "SUBN"
  | .shl _ _ => "SHL"
  | .sneVxVy _ _ => "SNE_VX_VY"
  | .ldINnn _ => "LD_I_NNN"
  | .jpV0 _ => "JP_V0"
  | .rnd _ _ => "RND"
  | .drw _ _ _ => "DRW"
  | .skp _ => "SKP"
  | .sknp _ => "SKNP"
  | .ldVxDt _ => "LD_VX_DT"
  | .ldVxK _ => "LD_VX_K"
  | .ldDtVx _ => "LD_DT_VX"
  | .ldStVx _ => "LD_ST_VX"
  | .addIVx _ => "ADD_I_VX"
  | .ldFVx _ => "LD_F_VX"
  | .ldHfVx _ => "LD_HF_VX"
  | .ldBVx _ => "LD_B_VX"
  | .ldMemVx _ => "LD_MEM_VX"
  | .ldVxMem _ => "LD_VX_MEM"

/-- A row of the opcode map: a word `op` selects it when `op and mask = match` (R84). -/
structure OpcodeRow where
  /-- The table id. -/
  id : String
  /-- The column "match". -/
  pattern : Word
  /-- The column "mask". -/
  mask : Word
deriving DecidableEq, Repr

/-- Whether a word selects the row (R84). -/
def OpcodeRow.selects (r : OpcodeRow) (w : Word) : Bool := w &&& r.mask == r.pattern

/-- The rows of R84 with first digits 0 to 7. -/
def opcodeRowsLow : List OpcodeRow :=
  [⟨"CLS", 0x00E0, 0xFFFF⟩, ⟨"RET", 0x00EE, 0xFFFF⟩, ⟨"JP", 0x1000, 0xF000⟩, ⟨"CALL", 0x2000, 0xF000⟩,
   ⟨"SE_VX_NN", 0x3000, 0xF000⟩, ⟨"SNE_VX_NN", 0x4000, 0xF000⟩, ⟨"SE_VX_VY", 0x5000, 0xF00F⟩,
   ⟨"LD_VX_NN", 0x6000, 0xF000⟩, ⟨"ADD_VX_NN", 0x7000, 0xF000⟩]

/-- The rows of R84 with first digit 8. -/
def opcodeRows8 : List OpcodeRow :=
  [⟨"LD_VX_VY", 0x8000, 0xF00F⟩, ⟨"OR", 0x8001, 0xF00F⟩, ⟨"AND", 0x8002, 0xF00F⟩, ⟨"XOR", 0x8003, 0xF00F⟩,
   ⟨"ADD_VX_VY", 0x8004, 0xF00F⟩, ⟨"SUB", 0x8005, 0xF00F⟩, ⟨"SHR", 0x8006, 0xF00F⟩, ⟨"SUBN", 0x8007, 0xF00F⟩,
   ⟨"SHL", 0x800E, 0xF00F⟩]

/-- The rows of R84 with first digits 9 to F. -/
def opcodeRowsHigh : List OpcodeRow :=
  [⟨"SNE_VX_VY", 0x9000, 0xF00F⟩, ⟨"LD_I_NNN", 0xA000, 0xF000⟩, ⟨"JP_V0", 0xB000, 0xF000⟩, ⟨"RND", 0xC000, 0xF000⟩,
   ⟨"DRW", 0xD000, 0xF000⟩, ⟨"SKP", 0xE09E, 0xF0FF⟩, ⟨"SKNP", 0xE0A1, 0xF0FF⟩, ⟨"LD_VX_DT", 0xF007, 0xF0FF⟩,
   ⟨"LD_VX_K", 0xF00A, 0xF0FF⟩, ⟨"LD_DT_VX", 0xF015, 0xF0FF⟩, ⟨"LD_ST_VX", 0xF018, 0xF0FF⟩,
   ⟨"ADD_I_VX", 0xF01E, 0xF0FF⟩, ⟨"LD_F_VX", 0xF029, 0xF0FF⟩, ⟨"LD_HF_VX", 0xF030, 0xF0FF⟩,
   ⟨"LD_B_VX", 0xF033, 0xF0FF⟩, ⟨"LD_MEM_VX", 0xF055, 0xF0FF⟩, ⟨"LD_VX_MEM", 0xF065, 0xF0FF⟩]

/-- The opcode map of rule R84: 35 rows. The decoder does not read it; that the two agree is a statement. -/
def opcodeRows : List OpcodeRow := opcodeRowsLow ++ opcodeRows8 ++ opcodeRowsHigh

/-- The first word of an instruction whose bits are `w`, bit 0 the least significant bit of the first word, with every bit
from `nbits` up taken as 0. -/
def tableWord (nbits w : Nat) : Word := BitVec.ofNat 16 (w % 2 ^ nbits)

/-- The instruction the decoder reads from the bytes of `tableWord nbits w`, laid out high byte first (R53). -/
def decodeTableWord (nbits w : Nat) : Option Instr :=
  match decodeBytes [highByte (tableWord nbits w), lowByte (tableWord nbits w)] with
  | .ok (i, _) => some i
  | .error _ => none

end Sys2Proof
end

