-- ==== Sys2Proof/Config.lean ====
section
/-! DEFINITION. What an implementation fixes (rule R6): the open parameters DISPLAY_EDGE, STRICT_DECODE and FONT as
plain data, and the free input RANDOM as a constant without a body. -/

namespace Sys2Proof

/-- The parameter DISPLAY_EDGE (R6, R103, D5): what a sprite pixel outside the 64 by 32 grid does. The
"clamp" policy that the source names once is not offered (U14, N6). -/
inductive DisplayEdge where
  /-- Each coordinate wraps separately, modulo 64 and modulo 32; the spec's default. -/
  | wrap
  /-- A set sprite bit outside the grid raises AddressOutOfRange(display, (px, py)). -/
  | reject
deriving DecidableEq, Repr

/-- The open parameters of rule R6 that the machine's behaviour depends on. They are the model's arguments: State
carries them, no step changes them, and a claim over all states holds for every value of them. -/
structure Config where
  /-- DISPLAY_EDGE (D5). -/
  displayEdge : DisplayEdge
  /-- STRICT_DECODE (D13): true makes an unknown opcode a fault, false a reported no-op. -/
  strictDecode : Bool
  /-- FONT (D7): the contents of memory 0 to 79 after power-on, hardReset and loadProgram. -/
  font : Vector Byte 80
deriving DecidableEq, Repr

/-- The default value of FONT, the table of rule R57. PRESUMED: the spec marks these bytes as general
knowledge, not in its source. Unsafe: a claim that rests on a glyph byte is a claim about this table, so it must name
the font as a premise (R57). Log entry 1. -/
def Config.standardFont : Vector Byte 80 :=
  #v[0xF0, 0x90, 0x90, 0x90, 0xF0,
     0x20, 0x60, 0x20, 0x20, 0x70,
     0xF0, 0x10, 0xF0, 0x80, 0xF0,
     0xF0, 0x10, 0xF0, 0x10, 0xF0,
     0x90, 0x90, 0xF0, 0x10, 0x10,
     0xF0, 0x80, 0xF0, 0x10, 0xF0,
     0xF0, 0x80, 0xF0, 0x90, 0xF0,
     0xF0, 0x10, 0x20, 0x40, 0x40,
     0xF0, 0x90, 0xF0, 0x90, 0xF0,
     0xF0, 0x90, 0xF0, 0x10, 0xF0,
     0xF0, 0x90, 0xF0, 0x90, 0x90,
     0xE0, 0x90, 0xE0, 0x90, 0xE0,
     0xF0, 0x80, 0x80, 0x80, 0xF0,
     0xE0, 0x90, 0x90, 0x90, 0xE0,
     0xF0, 0x80, 0xF0, 0x80, 0xF0,
     0xF0, 0x80, 0xF0, 0x80, 0x80]

/-- The defaults of rule R6: DISPLAY_EDGE = wrap, STRICT_DECODE = false, FONT the table of R57. -/
def Config.default : Config :=
  { displayEdge := .wrap, strictDecode := false, font := Config.standardFont }

/-- The parameter RANDOM (R6, R143, D16): the byte that the n-th draw of `Draw8()` takes. A FREE VALUE: it has no
body, so nothing can be proved about it and a claim that mentions it holds whatever the bytes are. Safe. Log
entry 2. -/
opaque Config.draw8 : Nat → Byte

end Sys2Proof
end

