-- ==== Sys2Proof/Machine/State.lean ====
section
/-! DEFINITION. The state of the core (the tuple of spec/10_state.md, rules R20 to R34), the model's own bookkeeping beside
it (parameters, schedule, draw counter, output trace), the outcomes a step can have, and power-on (rule R240). -/

namespace Sys2Proof.Machine

/-- The run state (R33). -/
inductive RunState where
  /-- Accepts no cycle and no timer tick. -/
  | halted
  /-- Accepts cycles and timer ticks. -/
  | running
deriving DecidableEq, Repr

/-- The space of an AddressOutOfRange fault with the offending address, pixel pair or index: the record's `fspace` and
`faddr` (R34, R201). -/
inductive FaultPlace where
  /-- Space 0: a memory address, at most 65550 (R65). -/
  | mem (addr : Nat)
  /-- Space 1: a pixel position (px, py) (R103). -/
  | display (px py : Nat)
  /-- Space 2: a key index (R171). -/
  | key (index : Nat)
deriving DecidableEq, Repr

/-- The causes of rule R201 with the information each records. -/
inductive Cause where
  /-- Code 1: raised by the fetch, Dxyn, Fx33, Fx55, Fx65, Ex9E, ExA1 and loadProgram. -/
  | addressOutOfRange (place : FaultPlace)
  /-- Code 2: raised by 2nnn with sixteen saved return addresses. -/
  | stackOverflow
  /-- Code 3: raised by 00EE with none. -/
  | stackUnderflow
  /-- Code 4: raised by a cycle when STRICT_DECODE is true; the word. -/
  | unknownOpcode (w : Word)
deriving DecidableEq, Repr

/-- The fault record (R34): the cause with its place, the address of the instruction whose cycle faulted, and its word.
`fpc` is absent only for a fault of loadProgram, `fop` for that and for a fault of the fetch (D2). -/
structure FaultRecord where
  cause : Cause
  fpc : Option Word
  fop : Option Word
deriving DecidableEq, Repr

/-- The output events (R46). They are not state of the core; the model keeps them as a trace (D25). -/
inductive Output where
  /-- The one-shot sound signal of the timer tick (R210). -/
  | beep
  /-- The report of an unknown opcode: the instruction's address and the word (R206). -/
  | report (addr w : Word)
  /-- The outcome `fault(cause, info)` returned to the caller of the step (R203). -/
  | fault (r : FaultRecord)
deriving DecidableEq, Repr

/-- One step of one agent (R38). The environment has exactly these moves (R47): a key is 0 to 15, and the renderer
only clears the redraw flag. -/
inductive Move where
  /-- The instruction driver: one cycle (R40). -/
  | cycle
  /-- The timer driver: one timer tick (R41). -/
  | timerTick
  /-- The input translator (R42). -/
  | setPressed (k : Fin 16) (pressed : Bool)
  /-- The renderer's framebuffer read (R43). -/
  | readFrame
  /-- The renderer's setDrawFlag(false) (R44). -/
  | clearDrawFlag
  /-- The host loads a program (R243). -/
  | loadProgram (bytes : List Byte)
  /-- The host's hardReset (R241). -/
  | hardReset
  /-- The host's softReset (R242). -/
  | softReset
deriving DecidableEq, Repr

/-- The framebuffer, 32 rows of 64 one-bit pixels: `fb[y][x]` (R27). -/
abbrev Framebuffer := Vector (Vector Bool 64) 32

/-- Memory as the (address, byte) pairs that differ from the power-on contents, in rising order of address; what an
unlisted address reads as is `unlistedByte` (Machine/Ops.lean). -/
abbrev Memory := List Host.Cell

/-- The state. The first thirteen fields are the tuple of spec/10_state.md, under its names; the last four are the
model's own. -/
structure State where
  /-- General registers V0 to VF; VF is the only flag (R20, R21). -/
  V : Vector Byte 16
  /-- The index register (R22). -/
  I : Word
  /-- The program counter (R23). -/
  pc : Word
  /-- The sixteen call-stack entries; those at `sp` and above are dead but keep their values (R24). -/
  stack : Vector Word 16
  /-- The stack depth, 0 to 16 (R24). -/
  sp : Fin 17
  /-- The delay timer (R25). -/
  DT : Byte
  /-- The sound timer (R25). -/
  ST : Byte
  /-- Main memory, addresses 0 to 4095 (R26). -/
  mem : Memory
  /-- The framebuffer (R27). -/
  fb : Framebuffer
  /-- The sixteen key flags, true when pressed (R28). -/
  keys : Vector Bool 16
  /-- The redraw flag (R29). -/
  draw : Bool
  /-- Halted or Running (R33). -/
  run : RunState
  /-- The fault record (R34). -/
  fault : Option FaultRecord
  /-- THE MODEL'S OWN: the open parameters (R6). No step changes them (log entry 3). -/
  config : Config
  /-- THE MODEL'S OWN: the agents' steps still to come, first one first; when it is empty the instruction driver takes
  the step (log entry 4). -/
  schedule : List Move
  /-- THE MODEL'S OWN: how many random bytes have been drawn, the argument of the free value Config.draw8 (log entry 2). -/
  draws : Nat
  /-- THE MODEL'S OWN: the output events so far, oldest first (log entry 5). -/
  outputs : List Output
deriving DecidableEq, Repr

/-- What stops the machine: nothing. Every fault of the spec is TAKEN, as a next state in which the core is Halted and
the record is written (R203), and a Halted core's cycle is a next state too (R40), so the type has no constructor. Safe:
no step ends here. Log entry 6. -/
inductive Fault where
deriving DecidableEq, Repr

/-- Why `exec` has no meaning for an instruction. -/
inductive Refusal where
  /-- Raised by an arm of Machine/Dispatch.lean for an instruction that has no meaning yet; no arm raises it now. Safe: the
  machine stops where the hardware goes on. -/
  | notModelled (mnemonic : String)
deriving DecidableEq, Repr

/-- The outcomes of an instruction and of a step. -/
abbrev Result := Host.Outcome State Fault Refusal

/-- Power-on (R240): every value is the rule's own. The parameters are the defaults of R6, no agent's step is scheduled,
nothing has been drawn or put out. Memory lists nothing: it holds the font and zeros. -/
def State.reset : State :=
  { V := Vector.replicate 16 0
    I := 0
    pc := 0x200
    stack := Vector.replicate 16 0
    sp := 0
    DT := 0
    ST := 0
    mem := []
    fb := Vector.replicate 32 (Vector.replicate 64 false)
    keys := Vector.replicate 16 false
    draw := true
    run := .halted
    fault := none
    config := Config.default
    schedule := []
    draws := 0
    outputs := [] }

end Sys2Proof.Machine
end

