-- ==== Sys2Proof/Machine/Ops.lean ====
section
/-! DEFINITION. The named operations over memory, registers, the stack and the program counter, and taking a fault
(rules R11, R24, R50 to R53, R203). An operation that the spec lets raise a fault answers in `Except Cause`. -/

namespace Sys2Proof.Machine

/-! Memory (R50 to R52, R56). -/

/-- What an address that memory does not list reads as: the power-on contents, that is FONT at 0 to 79 and 0 elsewhere
(R240, R56, R57). -/
def unlistedByte (c : Config) (a : Nat) : Byte :=
  if h : a < 80 then c.font[a] else 0

/-- The byte listed at an address. -/
def Memory.lookup (a : Nat) : Memory → Option Byte
  | [] => none
  | e :: m => if e.1 = a then some e.2 else Memory.lookup a m

/-- `mem[a]`, for an address the caller has checked (R50). -/
def Memory.read (c : Config) (m : Memory) (a : Nat) : Byte :=
  (Memory.lookup a m).getD (unlistedByte c a)

/-- Lists a byte at its place in the rising order. -/
def Memory.insert (a : Nat) (v : Byte) : Memory → Memory
  | [] => [(a, v)]
  | e :: m => if a < e.1 then (a, v) :: e :: m else e :: Memory.insert a v m

/-- Drops the entry of an address. -/
def Memory.erase (a : Nat) (m : Memory) : Memory := m.filter (fun e => e.1 != a)

/-- `mem[a] <- v`, for an address the caller has checked (R51), keeping the canonical form. -/
def Memory.write (c : Config) (m : Memory) (a : Nat) (v : Byte) : Memory :=
  if v = unlistedByte c a then Memory.erase a m else Memory.insert a v (Memory.erase a m)

/-- The canonical form: addresses strictly rising and inside memory, no entry equal to what an unlisted address reads. -/
abbrev Memory.wf (c : Config) (m : Memory) : Prop :=
  m.Pairwise (fun e f => e.1 < f.1) ∧ ∀ e ∈ m, e.1 < 4096 ∧ e.2 ≠ unlistedByte c e.1

/-- Stores bytes at consecutive addresses from `a`; the copying half of `writeBlock`. -/
def Memory.writeList (c : Config) (m : Memory) (a : Nat) : List Byte → Memory
  | [] => m
  | b :: bs => Memory.writeList c (Memory.write c m a b) (a + 1) bs

/-- `writeBlock(values, start)` (R52): all or nothing. The address it reports is the first one outside memory, 4096
(R201). -/
def Memory.writeBlock (c : Config) (m : Memory) (values : List Byte) (start : Nat) : Except Cause Memory :=
  if start + values.length > 4096 then .error (.addressOutOfRange (.mem 4096))
  else .ok (Memory.writeList c m start values)

/-- `clearRange(start, end)`, both ends included (R52, D19). -/
def Memory.clearRange (c : Config) (m : Memory) (start last : Nat) : Memory :=
  Memory.writeList c m start (List.replicate (last + 1 - start) 0)

/-- `clearAll()` (R52). -/
def Memory.clearAll (c : Config) (m : Memory) : Memory := Memory.clearRange c m 0 4095

/-- Memory right after power-on, hardReset and before a load: FONT, then zeros (R240, R241). -/
def Memory.powerOn : Memory := []

/-- The byte at an address of memory, with no range check; what a reader of the state sees at 0 to 4095. -/
def State.byteAt (s : State) (a : Nat) : Byte := Memory.read s.config s.mem a

/-- `MemRead(addr, 1)` (R50). -/
def State.memRead (s : State) (a : Nat) : Except Cause Byte :=
  if a ≤ 4095 then .ok (s.byteAt a) else .error (.addressOutOfRange (.mem a))

/-- `MemWrite(addr, 1, v)` (R51). -/
def State.memWrite (s : State) (a : Nat) (v : Byte) : Except Cause State :=
  if a ≤ 4095 then .ok { s with mem := Memory.write s.config s.mem a v }
  else .error (.addressOutOfRange (.mem a))

/-- One MemWrite after another at rising addresses, up to the first that is out of range (R155, R156). -/
def State.storeBytes (s : State) (a : Nat) : List Byte → Except Cause State
  | [] => .ok s
  | b :: bs =>
    match s.memWrite a b with
    | .ok s' => s'.storeBytes (a + 1) bs
    | .error e => .error e

/-! Registers (R11, R20, R22). -/

/-- `V[x]` (R20). -/
def State.reg (s : State) (x : RegIdx) : Byte := s.V[x.toNat]

/-- `V[x] <- v` (R20): VF is written like any other. -/
def State.setReg (s : State) (x : RegIdx) (v : Byte) : State := { s with V := s.V.set x.toNat v }

/-- `I <- v` (R22). -/
def State.setI (s : State) (v : Word) : State := { s with I := v }

/-- `DT <- v` (R25). -/
def State.setDT (s : State) (v : Byte) : State := { s with DT := v }

/-- `ST <- v` (R25). -/
def State.setST (s : State) (v : Byte) : State := { s with ST := v }

/-- `draw <- b` (R29). -/
def State.setDraw (s : State) (b : Bool) : State := { s with draw := b }

/-- `fb <- f` (R27). -/
def State.setFb (s : State) (f : Framebuffer) : State := { s with fb := f }

/-- `keys[k] <- b` (R28). -/
def State.setKey (s : State) (k : Fin 16) (b : Bool) : State := { s with keys := s.keys.set k.val b }

/-- One MemRead after another into the registers named, up to the first that is out of range (R157). -/
def State.loadRegs (s : State) (a : Nat) : List RegIdx → Except Cause State
  | [] => .ok s
  | k :: ks =>
    match s.memRead a with
    | .ok b => (s.setReg k b).loadRegs (a + 1) ks
    | .error e => .error e

/-! The program counter (R23, R110). -/

/-- `pc <- target` (R11). -/
def State.setPc (s : State) (target : Word) : State := { s with pc := target }

/-- The fetch phase's `pc <- pc + 2`, before the instruction executes (R23, R40). -/
def State.advance (s : State) : State := s.setPc (s.pc + 2)

/-- `skip` when the condition holds: `pc <- pc + 2` on top of the fetch phase's advance (R110). -/
def State.skipIf (s : State) (c : Bool) : State := if c then s.setPc (s.pc + 2) else s

/-! The call stack (R24). -/

/-- A push: StackOverflow when sixteen values are saved (R24, R113). -/
def State.push (s : State) (w : Word) : Except Cause State :=
  if h : s.sp.val < 16 then
    .ok { s with stack := s.stack.set s.sp.val w, sp := ⟨s.sp.val + 1, Nat.succ_lt_succ h⟩ }
  else .error .stackOverflow

/-- A pop: the value and the state, with the entry itself left in place; StackUnderflow when none is saved (R24, R111). -/
def State.pop (s : State) : Except Cause (Word × State) :=
  if h : 0 < s.sp.val then
    .ok (s.stack[s.sp.val - 1]'(Nat.lt_of_lt_of_le (Nat.sub_lt h Nat.one_pos) (Nat.lt_succ_iff.mp s.sp.isLt)),
      { s with sp := ⟨s.sp.val - 1, Nat.lt_of_le_of_lt (Nat.sub_le _ _) s.sp.isLt⟩ })
  else .error .stackUnderflow

/-! Outputs and faults (R46, R203). -/

/-- Puts out an event (R46). -/
def State.emit (s : State) (o : Output) : State := { s with outputs := s.outputs ++ [o] }

/-- The record of a fault (R34). -/
def faultRecord (c : Cause) (fpc fop : Option Word) : FaultRecord := { cause := c, fpc := fpc, fop := fop }

/-- TAKING A FAULT (R203): from the state before the faulting step, `run <- Halted`, the record is written, nothing else
changes, and the outcome is returned to the caller of the step (R46). There is no vector and no saved status, and no
return: only the host's operations lead on (R204). -/
def State.takeFault (s : State) (c : Cause) (fpc fop : Option Word) : State :=
  { s with
    run := .halted
    fault := some (faultRecord c fpc fop)
    outputs := s.outputs ++ [.fault (faultRecord c fpc fop)] }

/-- Ends the cycle of an instruction at `s.pc` whose word is `op`: with the state its execute phase reached, or, on a
raise, with the fault taken from the state before the cycle, so that no write of the cycle survives (R40, R203). -/
def State.finish (s : State) (op : Word) : Except Cause State → Result
  | .ok t => .next t
  | .error c => .next (s.takeFault c (some s.pc) (some op))

/-- The fetch: the bytes at pc and pc + 1, the first one high (R53, R80). -/
def State.fetch (s : State) : Except Cause Word :=
  match s.memRead s.pc.toNat with
  | .error e => .error e
  | .ok hi =>
    match s.memRead (s.pc.toNat + 1) with
    | .error e => .error e
    | .ok lo => .ok (wordOfBytes hi lo)

end Sys2Proof.Machine
end

