-- ==== Sys2Proof/Machine/Arith.lean ====
section
/-! DEFINITION. Register load, arithmetic, logic and random: 6xnn, 7xnn, 8xy0 to 8xyE, Cxnn
(spec/42_register_arithmetic.md, rules R130 to R144). Where VF is an operand, the writes happen in the row's own order and
each statement reads the registers as they then stand (R131). -/

namespace Sys2Proof.Machine

/-- 6xnn (R132). -/
def execLdVxNn (x : RegIdx) (nn : Byte) (s : State) : Result := .next (s.advance.setReg x nn)

/-- 7xnn (R133): wraps, no flag. -/
def execAddVxNn (x : RegIdx) (nn : Byte) (s : State) : Result := .next (s.advance.setReg x (s.reg x + nn))

/-- 8xy0 (R134). -/
def execLdVxVy (x y : RegIdx) (s : State) : Result := .next (s.advance.setReg x (s.reg y))

/-- 8xy1 (R135). -/
def execOr (x y : RegIdx) (s : State) : Result := .next (s.advance.setReg x (s.reg x ||| s.reg y))

/-- 8xy2 (R136). -/
def execAnd (x y : RegIdx) (s : State) : Result := .next (s.advance.setReg x (s.reg x &&& s.reg y))

/-- 8xy3 (R137). -/
def execXor (x y : RegIdx) (s : State) : Result := .next (s.advance.setReg x (s.reg x ^^^ s.reg y))

/-- 8xy4 (R138): the sum is computed once, Vx is written, then VF. -/
def execAddVxVy (x y : RegIdx) (s : State) : Result :=
  .next ((s.advance.setReg x (s.reg x + s.reg y)).setReg 15 (carryFlag (s.reg x) (s.reg y)))

/-- The second half of 8xy5, after VF is written (R139). -/
def State.subInto (s : State) (x y : RegIdx) : State := s.setReg x (s.reg x - s.reg y)

/-- 8xy5 (R139): VF is written first, and the subtraction reads the registers after that. -/
def execSub (x y : RegIdx) (s : State) : Result :=
  .next ((s.advance.setReg 15 (greaterFlag (s.reg x) (s.reg y))).subInto x y)

/-- The second half of 8xy6, after VF is written (R140): logical, by one. -/
def State.shrInto (s : State) (x : RegIdx) : State := s.setReg x (s.reg x >>> 1)

/-- 8xy6 (R140): the operand is Vx; y is ignored. -/
def execShr (x _y : RegIdx) (s : State) : Result :=
  .next ((s.advance.setReg 15 (lowBitFlag (s.reg x))).shrInto x)

/-- The second half of 8xy7, after VF is written (R141). -/
def State.subnInto (s : State) (x y : RegIdx) : State := s.setReg x (s.reg y - s.reg x)

/-- 8xy7 (R141): VF is written first, and the subtraction reads the registers after that. -/
def execSubn (x y : RegIdx) (s : State) : Result :=
  .next ((s.advance.setReg 15 (greaterFlag (s.reg y) (s.reg x))).subnInto x y)

/-- The second half of 8xyE, after VF is written (R142). -/
def State.shlInto (s : State) (x : RegIdx) : State := s.setReg x (s.reg x <<< 1)

/-- 8xyE (R142): the operand is Vx; y is ignored. -/
def execShl (x _y : RegIdx) (s : State) : Result :=
  .next ((s.advance.setReg 15 (highBitFlag (s.reg x))).shlInto x)

/-- `Draw8()`: the next random byte, a FREE VALUE, and the state in which it has been drawn (R143, log entry 2). -/
def State.drawByte (s : State) : Byte × State := (Config.draw8 s.draws, { s with draws := s.draws + 1 })

/-- Cxnn (R143). -/
def execRnd (x : RegIdx) (nn : Byte) (s : State) : Result :=
  .next (s.advance.drawByte.2.setReg x (s.advance.drawByte.1 &&& nn))

end Sys2Proof.Machine
end

