-- ==== Sys2Proof/Machine/Operands.lean ====
section
/-! DEFINITION. The operand forms: effective addresses, register lists, decimal digits, address immediates, and the
sprite's positions (rules R54, R65, R82, R102, R153, R155). -/

namespace Sys2Proof.Machine

/-- The effective address `I + k`, in the unbounded integers: no wrap (R65). -/
def State.effAddr (s : State) (k : Nat) : Nat := s.I.toNat + k

/-- The registers V0 to Vx, in order (R156, R157). -/
def regsUpTo (x : RegIdx) : List RegIdx := (List.range (x.toNat + 1)).map (BitVec.ofNat 4)

/-- An address field as a 16-bit value, zero-extended (R82, R112, R151). -/
def addrWord (nnn : Addr) : Word := nnn.setWidth 16

/-- A register value as a 16-bit value, zero-extended (R11). -/
def byteWord (b : Byte) : Word := b.setWidth 16

/-- The decimal digits hundreds, tens, ones (R155). -/
def decimalDigits (v : Byte) : List Byte :=
  [BitVec.ofNat 8 (v.toNat / 100), BitVec.ofNat 8 (v.toNat / 10 % 10), BitVec.ofNat 8 (v.toNat % 10)]

/-- The font address of a value: five bytes a glyph, the whole value used (R153). -/
def glyphAddr (v : Byte) : Word := BitVec.ofNat 16 (v.toNat * 5)

/-- The key a register value selects, if it is one: the value is not masked (R171). -/
def keyOfValue (v : Byte) : Option (Fin 16) := if h : v.toNat < 16 then some ⟨v.toNat, h⟩ else none

/-- The lowest-numbered pressed key (R174, D15). -/
def State.firstKey (s : State) : Option (Fin 16) := (List.finRange 16).find? (fun k => s.keys[k])

end Sys2Proof.Machine
end

