-- ==== Sys2Proof/Machine/Control.lean ====
section
/-! DEFINITION. Control transfer: 00EE, 1nnn, 2nnn, 3xnn, 4xnn, 5xy0, 9xy0, Bnnn (spec/41_control_flow.md, rules R110 to
R118). A target is not range-checked here; the next fetch is (R110). -/

namespace Sys2Proof.Machine

/-- 00EE (R111): pops into pc and marks redraw. -/
def execRet (s : State) : Result :=
  s.finish (encode .ret)
    (match s.advance.pop with
     | .ok (w, t) => .ok ((t.setPc w).setDraw true)
     | .error err => .error err)

/-- 1nnn (R112). -/
def execJp (nnn : Addr) (s : State) : Result := .next (s.advance.setPc (addrWord nnn))

/-- 2nnn (R113): pushes the advanced pc, the address of the instruction after the call. -/
def execCall (nnn : Addr) (s : State) : Result :=
  s.finish (encode (.call nnn))
    (match s.advance.push s.advance.pc with
     | .ok t => .ok (t.setPc (addrWord nnn))
     | .error err => .error err)

/-- 3xnn (R114). -/
def execSeVxNn (x : RegIdx) (nn : Byte) (s : State) : Result := .next (s.advance.skipIf (s.reg x == nn))

/-- 4xnn (R115). -/
def execSneVxNn (x : RegIdx) (nn : Byte) (s : State) : Result := .next (s.advance.skipIf (s.reg x != nn))

/-- 5xy0 (R116). -/
def execSeVxVy (x y : RegIdx) (s : State) : Result := .next (s.advance.skipIf (s.reg x == s.reg y))

/-- 9xy0 (R117). -/
def execSneVxVy (x y : RegIdx) (s : State) : Result := .next (s.advance.skipIf (s.reg x != s.reg y))

/-- Bnnn (R118): the sum is not reduced modulo 4096. -/
def execJpV0 (nnn : Addr) (s : State) : Result := .next (s.advance.setPc (addrWord nnn + byteWord (s.reg 0)))

end Sys2Proof.Machine
end

