-- ==== Sys2Proof/Machine/Display.lean ====
section
/-! DEFINITION. The display instructions 00E0 and Dxyn (spec/40_display.md, rules R100 to R103). -/

namespace Sys2Proof.Machine

/-- The clear display: every pixel 0 (R101). -/
def clearFb : Framebuffer := Vector.replicate 32 (Vector.replicate 64 false)

/-- `getPixel`, for coordinates on the grid; 0 off it, where no caller asks (R43, R100). -/
def pixelAt (f : Framebuffer) (x y : Nat) : Bool :=
  if h : y < 32 then if h' : x < 64 then (f[y])[x] else false else false

/-- The XOR of one pixel of the grid with 1 (R100, R103). -/
def flipPixel (f : Framebuffer) (x : Fin 64) (y : Fin 32) : Framebuffer :=
  f.set y.val ((f[y.val]).set x.val (!(f[y.val])[x.val]))

/-- `XorPixel(px, py)`: the framebuffer after it and the pixel before it, by the edge policy (R103). -/
def xorPixel (e : DisplayEdge) (f : Framebuffer) (px py : Nat) : Except Cause (Framebuffer × Bool) :=
  if e = .reject ∧ (px > 63 ∨ py > 31) then .error (.addressOutOfRange (.display px py))
  else .ok (flipPixel f (Fin.ofNat 64 px) (Fin.ofNat 32 py), pixelAt f (px % 64) (py % 32))

/-- The columns `cs` of one sprite row, left to right, bit 7 leftmost; the accumulator is the framebuffer and the
collision so far (R102, D6). -/
def drawColumns (e : DisplayEdge) (b : Byte) (vx py : Nat) :
    List Nat → Framebuffer × Bool → Except Cause (Framebuffer × Bool)
  | [], acc => .ok acc
  | c :: cs, acc =>
    if b.getLsbD (7 - c) then
      match xorPixel e acc.1 (vx + c) py with
      | .ok (f, old) => drawColumns e b vx py cs (f, acc.2 || old)
      | .error err => .error err
    else drawColumns e b vx py cs acc

/-- The sprite rows `rs`, top to bottom: each row's byte is read before its pixels are touched (R102, R205). -/
def State.drawRows (s : State) (vx vy : Nat) :
    List Nat → Framebuffer × Bool → Except Cause (Framebuffer × Bool)
  | [], acc => .ok acc
  | r :: rs, acc =>
    match s.memRead (s.effAddr r) with
    | .ok b =>
      match drawColumns s.config.displayEdge b vx (vy + r) (List.range 8) acc with
      | .ok acc' => s.drawRows vx vy rs acc'
      | .error err => .error err
    | .error err => .error err

/-- Draws the sprite of `n` rows at `I` with its top left pixel at (vx, vy): the framebuffer and the collision (R102). -/
def State.drawSprite (s : State) (vx vy n : Nat) : Except Cause (Framebuffer × Bool) :=
  s.drawRows vx vy (List.range n) (s.fb, false)

/-- 00E0 (R101). -/
def execCls (s : State) : Result := .next ((s.advance.setFb clearFb).setDraw true)

/-- Dxyn (R102): Vx, Vy and I are read first, VF is written last. -/
def execDrw (x y : RegIdx) (n : Nibble) (s : State) : Result :=
  s.finish (encode (.drw x y n))
    (match s.drawSprite (s.reg x).toNat (s.reg y).toNat n.toNat with
     | .ok (f, hit) => .ok (((s.advance.setFb f).setReg 15 (flagByte hit)).setDraw true)
     | .error err => .error err)

end Sys2Proof.Machine
end

