-- ==== Sys2Proof/Machine/Index.lean ====
section
/-! DEFINITION. The index register and the loads and stores at it: Annn, Fx1E, Fx29, Fx30, Fx33, Fx55, Fx65
(spec/43_index_memory.md, rules R150 to R158). Fx33, Fx55 and Fx65 leave I unchanged, and a fault leaves memory and
registers unchanged (R150). -/

namespace Sys2Proof.Machine

/-- Annn (R151). -/
def execLdINnn (nnn : Addr) (s : State) : Result := .next (s.advance.setI (addrWord nnn))

/-- Fx1E (R152): modulo 65536, no flag. -/
def execAddIVx (x : RegIdx) (s : State) : Result := .next (s.advance.setI (s.I + byteWord (s.reg x)))

/-- Fx29 (R153). -/
def execLdFVx (x : RegIdx) (s : State) : Result := .next (s.advance.setI (glyphAddr (s.reg x)))

/-- Fx30 (R154): nothing but the fetch phase's advance, for every x. -/
def execLdHfVx (_x : RegIdx) (s : State) : Result := .next s.advance

/-- Fx33 (R155). -/
def execLdBVx (x : RegIdx) (s : State) : Result :=
  s.finish (encode (.ldBVx x)) (s.advance.storeBytes (s.effAddr 0) (decimalDigits (s.reg x)))

/-- Fx55 (R156). -/
def execLdMemVx (x : RegIdx) (s : State) : Result :=
  s.finish (encode (.ldMemVx x)) (s.advance.storeBytes (s.effAddr 0) ((regsUpTo x).map s.reg))

/-- Fx65 (R157). -/
def execLdVxMem (x : RegIdx) (s : State) : Result :=
  s.finish (encode (.ldVxMem x)) (s.advance.loadRegs (s.effAddr 0) (regsUpTo x))

end Sys2Proof.Machine
end

