-- ==== Sys2Proof/Machine/Input.lean ====
section
/-! DEFINITION. Key input and timer access: Ex9E, ExA1, Fx07, Fx0A, Fx15, Fx18 (spec/44_input_timers.md, rules R170 to
R176). -/

namespace Sys2Proof.Machine

/-- A skip on the state of the key that a register value selects; a value above 15 is out of range (R171, R172). -/
def State.skipOnKey (s : State) (v : Byte) (pressed : Bool) : Except Cause State :=
  match keyOfValue v with
  | some k => .ok (s.skipIf (s.keys[k] == pressed))
  | none => .error (.addressOutOfRange (.key v.toNat))

/-- Ex9E (R171). -/
def execSkp (x : RegIdx) (s : State) : Result := s.finish (encode (.skp x)) (s.advance.skipOnKey (s.reg x) true)

/-- ExA1 (R172). -/
def execSknp (x : RegIdx) (s : State) : Result := s.finish (encode (.sknp x)) (s.advance.skipOnKey (s.reg x) false)

/-- Fx07 (R173). -/
def execLdVxDt (x : RegIdx) (s : State) : Result := .next (s.advance.setReg x s.DT)

/-- Waits for a key: rewinds pc by 2 when none is pressed, else takes the lowest and clears its flag (R174). -/
def State.waitKey (s : State) (x : RegIdx) : State :=
  match s.firstKey with
  | none => s.setPc (s.pc - 2)
  | some k => (s.setReg x (BitVec.ofNat 8 k.val)).setKey k false

/-- Fx0A (R174). -/
def execLdVxK (x : RegIdx) (s : State) : Result := .next (s.advance.waitKey x)

/-- Fx15 (R175). -/
def execLdDtVx (x : RegIdx) (s : State) : Result := .next (s.advance.setDT (s.reg x))

/-- Fx18 (R176): emits nothing itself. -/
def execLdStVx (x : RegIdx) (s : State) : Result := .next (s.advance.setST (s.reg x))

end Sys2Proof.Machine
end

