-- ==== Sys2Proof/Machine/Interface.lean ====
section
/-! DEFINITION. The operations through which the timer driver, the input translator, the renderer and the host touch the
core (rules R41 to R45, R210, R240 to R243). Each is one atomic step (R62). -/

namespace Sys2Proof.Machine

/-- The delay timer's half of a tick: down by one, never below zero (R210). -/
def State.tickDelay (s : State) : State := if s.DT = 0 then s else s.setDT (s.DT - 1)

/-- The sound timer's half of a tick: the beep is emitted when ST was exactly 1 before the decrement (R210). -/
def State.tickSound (s : State) : State :=
  if s.ST = 0 then s
  else if s.ST = 1 then (s.emit .beep).setST 0
  else s.setST (s.ST - 1)

/-- `timerTick()` (R41, R210): nothing while Halted. -/
def timerTick (s : State) : State :=
  match s.run with
  | .halted => s
  | .running => s.tickDelay.tickSound

/-- `setPressed(k, b)`, in both run states (R42). -/
def setPressed (k : Fin 16) (b : Bool) (s : State) : State := s.setKey k b

/-- `isPressed(k)` (R42). -/
def isPressed (k : Fin 16) (s : State) : Bool := s.keys[k]

/-- What the renderer's read returns: all of the framebuffer and the redraw flag, as of one instant (R43). -/
def readFrame (s : State) : Framebuffer × Bool := (s.fb, s.draw)

/-- `getPixel(x, y)` (R43). -/
def getPixel (x : Fin 64) (y : Fin 32) (s : State) : Bool := pixelAt s.fb x.val y.val

/-- `setDrawFlag(b)`, in both run states (R44). -/
def setDrawFlag (b : Bool) (s : State) : State := s.setDraw b

/-- `softReset()` (R242): everything the CPU owns except memory; `mem`, `keys` and `run` are kept. -/
def softReset (s : State) : State :=
  { s with
    V := Vector.replicate 16 0
    I := 0
    pc := 0x200
    stack := Vector.replicate 16 0
    sp := 0
    DT := 0
    ST := 0
    fb := clearFb
    draw := true
    fault := none }

/-- `hardReset()` (R241): the power-on state except that `keys` is kept; memory is cleared and the font written again. -/
def hardReset (s : State) : State := { softReset s with mem := Memory.powerOn, run := .halted }

/-- `loadProgram(bytes)` (R243): a program that would pass the end of memory is a fault with neither fpc nor fop; otherwise
a hardReset, the bytes at 0x200 upward, and Running. DESIGN CHOICE: on a core that already holds a fault record the fault of
the load writes its own record over it, as R203's assignment does; R204 says that no second fault can overwrite a record, and
R243 lets the load raise in either run state. Unsafe for a claim that a record, once written, stays. Log entry 23. -/
def loadProgram (bytes : List Byte) (s : State) : State :=
  match Memory.writeBlock s.config Memory.powerOn bytes 0x200 with
  | .error c => s.takeFault c none none
  | .ok m => { hardReset s with mem := m, run := .running }

end Sys2Proof.Machine
end

