-- ==== Sys2Proof/Machine/Cycle.lean ====
section
/-! DEFINITION. The cycle (rule R40), the handling of unknown opcodes (rule R206), and one step of any agent (rule R38). -/

namespace Sys2Proof.Machine

/-- A cycle whose word `w` matches no row (R206): a report and `pc <- pc + 2`, or, in strict mode, a fault. -/
def unknownOpcode (w : Word) (s : State) : State :=
  if s.config.strictDecode then s.takeFault (.unknownOpcode w) (some s.pc) (some w)
  else s.advance.emit (.report s.pc w)

/-- Decode and execute the fetched word (R40, R83). -/
def runWord (w : Word) (s : State) : Result :=
  match decode w with
  | .ok i => exec i s
  | .error _ => .next (unknownOpcode w s)

/-- `cycle()` (R40): nothing while Halted; a fault of the fetch has no word to record. -/
def cycle (s : State) : Result :=
  match s.run with
  | .halted => .next s
  | .running =>
    match s.fetch with
    | .ok w => runWord w s
    | .error c => .next (s.takeFault c (some s.pc) none)

/-- The step of the agent whose move it is (R38). A framebuffer read changes no state (R43). -/
def perform (m : Move) (s : State) : Result :=
  match m with
  | .cycle => cycle s
  | .timerTick => .next (timerTick s)
  | .setPressed k b => .next (setPressed k b s)
  | .readFrame => .next s
  | .clearDrawFlag => .next (setDrawFlag false s)
  | .loadProgram bytes => .next (loadProgram bytes s)
  | .hardReset => .next (hardReset s)
  | .softReset => .next (softReset s)

/-- The next move of the schedule; the instruction driver's when nothing is scheduled (log entry 4). -/
def nextMove (s : State) : Move × State :=
  match s.schedule with
  | [] => (.cycle, s)
  | m :: ms => (m, { s with schedule := ms })

/-- The state in which the instruction word `w` stands where the fetch reads and the next step is a cycle that runs it:
its bytes at pc and pc + 1, high byte first (R53), the core Running, nothing scheduled before it. Where pc leaves no
room for them (above 4094) memory is left as it is: no instruction can be fetched there (R80). -/
def State.placeWord (s : State) (w : Word) : State :=
  { s with
    mem :=
      match Memory.writeBlock s.config s.mem [highByte w, lowByte w] s.pc.toNat with
      | .ok m => m
      | .error _ => s.mem
    run := .running
    schedule := [] }

end Sys2Proof.Machine
end

