-- ==== Sys2Proof/Machine/Step.lean ====
section
/-! DEFINITION. One step of the machine: one whole step of one agent (rules R38, R62). -/

namespace Sys2Proof.Machine

/-- The step: the move whose turn it is, performed. -/
def step (s : State) : Host.Outcome State Fault Refusal := perform (nextMove s).1 (nextMove s).2

/-- `s` with the instruction of the table's bits `w` where the next step fetches; it stands for the load of a program
(R243), which no step of the core does by itself (log entry 7). -/
def State.withFetchWord (s : State) (nbits w : Nat) : State := s.placeWord (tableWord nbits w)

end Sys2Proof.Machine
end

