-- ==== Sys2Proof/Safety.lean ====
section
/-! DEFINITION. What counts as a safe run, and the terms that claims are made in: the faulted state, the invariants, which
instruction may write what (rules R10, R201, R203, R247). Nothing here is used by the machine. -/

namespace Sys2Proof.Machine

/-- A state without a fault record. A claim takes it as a premise and proves it as a conclusion (R203). -/
abbrev State.Safe (s : State) : Prop := s.fault = none

/-- The state that rule R203 gives after a fault: `s` with `run`, the record and the output of the outcome, written out
field by field so that the machine's own `takeFault` can be held against it. -/
def State.afterFault (s : State) (c : Cause) (fpc fop : Option Word) : State :=
  { s with
    run := .halted
    fault := some { cause := c, fpc := fpc, fop := fop }
    outputs := s.outputs ++ [.fault { cause := c, fpc := fpc, fop := fop }] }

/-- Memory is in its canonical form. -/
abbrev State.MemCanonical (s : State) : Prop := Memory.wf s.config s.mem

/-- A core that holds a fault record is Halted (R203, R204). -/
abbrev State.FaultHalts (s : State) : Prop := s.fault ≠ none → s.run = .halted

/-- The bounds of rule R23 on pc, at most 0x10FE, and of rule R111 on the saved return addresses, at most 4096. -/
abbrev State.PcBounded (s : State) : Prop :=
  s.pc.toNat ≤ 0x10FE ∧ ∀ k : Fin 16, k.val < s.sp.val → (s.stack[k]).toNat ≤ 4096

/-- The word at pc is a jump to pc itself: the candidate for the open parameter END_OF_RUN (R247, D23). -/
abbrev State.SelfJump (s : State) : Prop := ∃ nnn : Addr, s.fetch = .ok (encode (.jp nnn)) ∧ addrWord nnn = s.pc

/-- A good end of a run by that candidate: a self-jump without a fault (R247). DT, ST, keys and draw may still change
afterwards by the other agents' steps. -/
abbrev State.EndOfRun (s : State) : Prop := s.SelfJump ∧ s.Safe

/-- `s` and `t` agree outside V and pc; every byte of memory reads the same. -/
def KeepsAllButRegs (s t : State) : Prop :=
  t = { s with V := t.V, pc := t.pc } ∧ ∀ a, t.byteAt a = s.byteAt a

/-- Bit `c` from the left of row `r` of the sprite at I (R102). -/
def State.spriteBit (s : State) (r c : Nat) : Bool := (s.byteAt (s.I.toNat + r)).getLsbD (7 - c)

/-- A set sprite bit of an `n`-row sprite drawn at (vx, vy) lands, with each coordinate wrapped, on (px, py) (R102,
R103). -/
def State.Covers (s : State) (vx vy n px py : Nat) : Prop :=
  ∃ r, r < n ∧ ∃ c, c < 8 ∧ s.spriteBit r c = true ∧ (vx + c) % 64 = px ∧ (vy + r) % 32 = py

/-- A set sprite bit of row `r`, column `c` drawn at (vx, vy) lies on the grid without wrapping (R103). -/
def State.BitFits (s : State) (vx vy r c : Nat) : Prop :=
  s.spriteBit r c = true → vx + c ≤ 63 ∧ vy + r ≤ 31

/-- The registers an instruction may write: its destination, and VF where the rule names it (R20, R21). -/
def writtenRegs : Instr → List RegIdx
  | .ldVxNn x _ | .addVxNn x _ | .ldVxVy x _ | .or x _ | .and x _ | .xor x _ | .rnd x _ | .ldVxDt x | .ldVxK x => [x]
  | .addVxVy x _ | .sub x _ | .shr x _ | .subn x _ | .shl x _ => [x, 15]
  | .drw _ _ _ => [15]
  | .ldVxMem x => regsUpTo x
  | .cls | .ret | .jp _ | .call _ | .seVxNn _ _ | .sneVxNn _ _ | .seVxVy _ _ | .sneVxVy _ _ | .ldINnn _ | .jpV0 _
  | .skp _ | .sknp _ | .ldDtVx _ | .ldStVx _ | .addIVx _ | .ldFVx _ | .ldHfVx _ | .ldBVx _ | .ldMemVx _ => []

/-- How many bytes from I an instruction stores (R158). -/
def storedBytes : Instr → Nat
  | .ldBVx _ => 3
  | .ldMemVx x => x.toNat + 1
  | .cls | .ret | .jp _ | .call _ | .seVxNn _ _ | .sneVxNn _ _ | .seVxVy _ _ | .sneVxVy _ _ | .ldVxNn _ _ | .addVxNn _ _
  | .ldVxVy _ _ | .or _ _ | .and _ _ | .xor _ _ | .addVxVy _ _ | .sub _ _ | .shr _ _ | .subn _ _ | .shl _ _ | .ldINnn _
  | .jpV0 _ | .rnd _ _ | .drw _ _ _ | .skp _ | .sknp _ | .ldVxDt _ | .ldVxK _ | .ldDtVx _ | .ldStVx _ | .addIVx _
  | .ldFVx _ | .ldHfVx _ | .ldVxMem _ => 0

/-- The eight instructions whose execute phase may raise a fault (R201). -/
def mayFault : Instr → Bool
  | .ret | .call _ | .drw _ _ _ | .skp _ | .sknp _ | .ldBVx _ | .ldMemVx _ | .ldVxMem _ => true
  | .cls | .jp _ | .seVxNn _ _ | .sneVxNn _ _ | .seVxVy _ _ | .sneVxVy _ _ | .ldVxNn _ _ | .addVxNn _ _ | .ldVxVy _ _
  | .or _ _ | .and _ _ | .xor _ _ | .addVxVy _ _ | .sub _ _ | .shr _ _ | .subn _ _ | .shl _ _ | .ldINnn _ | .jpV0 _
  | .rnd _ _ | .ldVxDt _ | .ldVxK _ | .ldDtVx _ | .ldStVx _ | .addIVx _ | .ldFVx _ | .ldHfVx _ => false

end Sys2Proof.Machine
end

