-- ==== Sys2Proof/Certificates/Slice0/Obligations.lean ====
section
/-! DEFINITION. The statements for the provers, from the numbered rules of spec/: encoding, the cycle, the agents' operations,
each instruction's result with its frame, and the rules about the whole machine. A result statement says that `exec`
ANSWERS a next state, so it is the instruction's completion statement too; `s` is the state before the cycle. -/

open Sys2Proof Sys2Proof.Machine

/-! ## Encoding -/

/-- R81, R82, R84: every instruction's operands are in their fields' ranges, and decoding its word, or its two bytes with
anything behind them, gives it back with every operand. -/
def Obligations.DecodeOfEncodeIsIdentity : Prop :=
  ∀ i : Instr, i.wf = true ∧ decode (encode i) = .ok i ∧
    ∀ rest : List Byte, decodeBytes (encodeBytes i ++ rest) = .ok (i, rest)

/-- R82, R84, R87: encoding what a word decodes to gives the word back, so decoding drops no bit, an ignored field's
included. -/
def Obligations.EncodeOfDecodeIsIdentity : Prop :=
  ∀ (w : Word) (i : Instr), decode w = .ok i → encode i = w

/-- R84: a word `op` selects a row with `op and mask = match` exactly when it decodes to that row's instruction. -/
def Obligations.DecodeFollowsTheOpcodeMap : Prop :=
  ∀ (w : Word), ∀ r ∈ opcodeRows, r.selects w = true ↔ ∃ i, decode w = .ok i ∧ i.mnemonic = r.id

/-- R83: the map has 35 rows, and a word matches at most one of them. -/
def Obligations.OpcodeRowsAreDisjoint : Prop :=
  opcodeRows.length = 35 ∧
    ∀ (w : Word), ∀ r ∈ opcodeRows, ∀ r' ∈ opcodeRows, r.selects w = true → r'.selects w = true → r = r'

/-- R85: decoding fails on exactly the listed words, and the failure names the word. -/
def Obligations.UnknownWordsAreTheListedOnes : Prop :=
  ∀ w : Word,
    (∀ e, decode w = .error e → e = .unknownOpcode w) ∧
    ((∃ e, decode w = .error e) ↔
      (fieldTop w = 0x0 ∧ w ≠ 0x00E0 ∧ w ≠ 0x00EE) ∨
      (fieldTop w = 0x5 ∧ fieldN w ≠ 0) ∨
      (fieldTop w = 0x8 ∧ fieldN w ∈ [0x8, 0x9, 0xA, 0xB, 0xC, 0xD, 0xF]) ∨
      (fieldTop w = 0x9 ∧ fieldN w ≠ 0) ∨
      (fieldTop w = 0xE ∧ fieldNn w ∉ [0x9E, 0xA1]) ∨
      (fieldTop w = 0xF ∧ fieldNn w ∉ [0x07, 0x0A, 0x15, 0x18, 0x1E, 0x29, 0x30, 0x33, 0x55, 0x65]))

/-- R84, vectors DE1, DE3, DE4, DE5, DE8, DE12, DE16: a few words, one of each format, and two unknown ones. -/
def Obligations.ListedWordsDecode : Prop :=
  decode 0x00E0 = .ok .cls ∧ decode 0x00E1 = .error (.unknownOpcode 0x00E1) ∧ decode 0xD12F = .ok (.drw 1 2 15) ∧
  decode 0x8AB4 = .ok (.addVxVy 10 11) ∧ decode 0xF965 = .ok (.ldVxMem 9) ∧ decode 0xBFFF = .ok (.jpV0 0xFFF) ∧
  decodeBytes [0x6A, 0x05] = .ok (.ldVxNn 10 5, []) ∧ decode 0x8AB8 = .error (.unknownOpcode 0x8AB8)

/-! ## The cycle -/

/-- R40: while Running and with nothing scheduled before the cycle, a step whose fetched word decodes to `i` is
`exec i`; with a cycle scheduled it is `exec i` of the state whose schedule has moved on (the schedule is the model's own,
log entry 4). -/
def Obligations.StepRunsTheDecodedInstruction : Prop :=
  (∀ (s : State) (w : Word) (i : Instr), s.run = .running → s.schedule = [] → s.fetch = .ok w → decode w = .ok i →
    step s = exec i s) ∧
  (∀ (s : State) (w : Word) (i : Instr) (ms : List Move), s.run = .running → s.schedule = .cycle :: ms →
    s.fetch = .ok w → decode w = .ok i → step s = exec i { s with schedule := ms })

/-- R53: the fetched word is `mem[pc] * 256 + mem[pc+1]`. -/
def Obligations.FetchIsBigEndian : Prop :=
  ∀ s : State, s.pc.toNat ≤ 4094 →
    ∃ w, s.fetch = .ok w ∧ w.toNat = (s.byteAt s.pc.toNat).toNat * 256 + (s.byteAt (s.pc.toNat + 1)).toNat

/-- R80, R203, R205: a cycle with pc above 4094 faults, on the address pc, or on 4096 when pc is 4095; no word is
recorded. -/
def Obligations.FetchOutsideMemoryFaults : Prop :=
  ∀ s : State, s.run = .running → s.schedule = [] → 4094 < s.pc.toNat →
    step s = .next (s.afterFault (.addressOutOfRange (.mem (if s.pc.toNat = 4095 then 4096 else s.pc.toNat)))
      (some s.pc) none)

/-- R206: a fetched word that matches no row of R84 is reported and skipped, or, in strict mode, faults; the default is
not strict. -/
def Obligations.UnknownOpcodeReportsOrFaults : Prop :=
  State.reset.config.strictDecode = false ∧
  ∀ (s : State) (w : Word), s.run = .running → s.schedule = [] → s.fetch = .ok w →
    (∀ r ∈ opcodeRows, r.selects w = false) →
    (s.config.strictDecode = false →
      step s = .next { s with pc := s.pc + 2, outputs := s.outputs ++ [.report s.pc w] }) ∧
    (s.config.strictDecode = true → step s = .next (s.afterFault (.unknownOpcode w) (some s.pc) (some w)))

/-- R40, R41: a Halted core's cycle and timer tick change nothing. -/
def Obligations.HaltedCoreIgnoresCycleAndTick : Prop :=
  ∀ s : State, s.run = .halted → cycle s = .next s ∧ timerTick s = s ∧ (s.schedule = [] → step s = .next s)

/-- R38, R40 to R45: a step performs the operation of the move whose turn it is. The order of moves is the model's own
schedule (log entry 4). -/
def Obligations.StepPerformsTheScheduledMove : Prop :=
  ∀ (s : State) (ms : List Move),
    (s.schedule = [] → step s = cycle s) ∧
    (s.schedule = .cycle :: ms → step s = cycle { s with schedule := ms }) ∧
    (s.schedule = .timerTick :: ms → step s = .next (timerTick { s with schedule := ms })) ∧
    (∀ k b, s.schedule = .setPressed k b :: ms → step s = .next (setPressed k b { s with schedule := ms })) ∧
    (s.schedule = .readFrame :: ms → step s = .next { s with schedule := ms }) ∧
    (s.schedule = .clearDrawFlag :: ms → step s = .next (setDrawFlag false { s with schedule := ms })) ∧
    (∀ bs, s.schedule = .loadProgram bs :: ms → step s = .next (loadProgram bs { s with schedule := ms })) ∧
    (s.schedule = .hardReset :: ms → step s = .next (hardReset { s with schedule := ms })) ∧
    (s.schedule = .softReset :: ms → step s = .next (softReset { s with schedule := ms }))

/-- R9, R203: the step is total; a fault of the core is a next state too, the one R203 gives. -/
def Obligations.EveryStepAnswersANextState : Prop :=
  ∀ s : State, ∃ t, step s = .next t

/-- R201, R203: an instruction leaves `run`, the fault record and the outputs alone, or it is one of the eight that may
fault and the next state is the state before the cycle with the fault recorded and nothing else changed. -/
def Obligations.FaultsArePrecise : Prop :=
  ∀ (i : Instr) (s t : State), exec i s = .next t →
    (t.run = s.run ∧ t.fault = s.fault ∧ t.outputs = s.outputs) ∨
    (mayFault i = true ∧ ∃ c, t = s.afterFault c (some s.pc) (some (encode i)))

/-! ## Reset, loading, and the other agents -/

/-- R240: the state after power-on. FONT is the parameter, whatever its bytes. -/
def Obligations.PowerOnState : Prop :=
  (∀ x, State.reset.reg x = 0) ∧ State.reset.I = 0 ∧ State.reset.pc = 0x200 ∧ State.reset.sp.val = 0 ∧
  (∀ k : Fin 16, State.reset.stack[k] = 0) ∧ State.reset.DT = 0 ∧ State.reset.ST = 0 ∧
  (∀ a : Fin 80, State.reset.byteAt a.val = State.reset.config.font[a]) ∧
  (∀ a, 80 ≤ a → a ≤ 4095 → State.reset.byteAt a = 0) ∧
  (∀ x y, getPixel x y State.reset = false) ∧ (∀ k, isPressed k State.reset = false) ∧
  State.reset.draw = true ∧ State.reset.run = .halted ∧ State.reset.fault = none

/-- The three invariants hold at power-on. -/
def Obligations.ResetMeetsTheInvariants : Prop :=
  State.reset.MemCanonical ∧ State.reset.FaultHalts ∧ State.reset.PcBounded

/-- R241: hardReset gives the power-on state but for `keys`, memory cleared and the font written again. The parameters,
the schedule, the draw counter and the trace are the model's own and stay (log entries 2 to 5). -/
def Obligations.HardResetEffect : Prop :=
  ∀ s : State, ∃ t, t = hardReset s ∧
    t = { State.reset with
          keys := s.keys, config := s.config, schedule := s.schedule, draws := s.draws, outputs := s.outputs } ∧
    (∀ a : Fin 80, t.byteAt a.val = s.config.font[a]) ∧ (∀ a, 80 ≤ a → a ≤ 4095 → t.byteAt a = 0)

/-- R242: softReset resets everything the CPU owns except memory; memory, keys and run stay. -/
def Obligations.SoftResetEffect : Prop :=
  ∀ s : State, ∃ t, t = softReset s ∧
    t = { State.reset with
          mem := s.mem, keys := s.keys, run := s.run, config := s.config, schedule := s.schedule, draws := s.draws,
          outputs := s.outputs } ∧
    (∀ a, t.byteAt a = s.byteAt a) ∧ (∀ x y, getPixel x y t = false) ∧ t.fault = none ∧ t.draw = true

/-- R243, R246: loadProgram of at most 3584 bytes gives the launch state, whatever the state before; a longer program is
a fault with neither fpc nor fop and nothing loaded. That this fault's record takes the place of an earlier one is the model's
choice (log entry 23). -/
def Obligations.LoadProgramEffect : Prop :=
  ∀ (s : State) (bytes : List Byte),
    (bytes.length ≤ 3584 → ∃ t, t = loadProgram bytes s ∧ t = { hardReset s with mem := t.mem, run := .running } ∧
      (∀ a : Fin 80, t.byteAt a.val = s.config.font[a]) ∧ (∀ a, 80 ≤ a → a < 512 → t.byteAt a = 0) ∧
      (∀ i : Fin bytes.length, t.byteAt (512 + i.val) = bytes[i]) ∧
      (∀ a, 512 + bytes.length ≤ a → a ≤ 4095 → t.byteAt a = 0) ∧ t.keys = s.keys) ∧
    (3584 < bytes.length → loadProgram bytes s = s.afterFault (.addressOutOfRange (.mem 4096)) none none)

/-- R52: writing FONT at 0 after clearing all of memory gives the power-on contents, whatever a canonical memory held. -/
def Obligations.ClearAllThenFontIsPowerOn : Prop :=
  ∀ (c : Config) (m : Memory), Memory.wf c m →
    Memory.writeBlock c (Memory.clearAll c m) c.font.toList 0 = .ok Memory.powerOn

/-- R210, R41: one tick while Running: each timer down by one and never below zero, Beep exactly when ST was 1; while Halted
nothing. -/
def Obligations.TimerTickEffect : Prop :=
  ∀ s : State,
    (s.run = .running → ∃ t, t = timerTick s ∧ t = { s with DT := t.DT, ST := t.ST, outputs := t.outputs } ∧
      t.DT.toNat = s.DT.toNat - 1 ∧ t.ST.toNat = s.ST.toNat - 1 ∧
      t.outputs = s.outputs ++ (if s.ST = 1 then [.beep] else [])) ∧
    (s.run = .halted → timerTick s = s)

/-- R176, R210: `k` ticks in a row take `k` from each timer, stopping at 0, and put out exactly one Beep when they take ST
from a non-zero value to 0, else none. -/
def Obligations.SoundTimerBeepsOnce : Prop :=
  ∀ (s : State) (k : Nat), s.run = .running → ∃ t, t = timerTick^[k] s ∧
    t = { s with DT := t.DT, ST := t.ST, outputs := t.outputs } ∧
    t.DT.toNat = s.DT.toNat - k ∧ t.ST.toNat = s.ST.toNat - k ∧
    t.outputs = s.outputs ++ (if 1 ≤ s.ST.toNat ∧ s.ST.toNat ≤ k then [.beep] else [])

/-- R42, R44: setPressed writes one key flag and setDrawFlag the redraw flag, in either run state, and nothing else
changes. -/
def Obligations.KeyAndRedrawOperations : Prop :=
  (∀ (k : Fin 16) (b : Bool) (s : State), ∃ t, t = setPressed k b s ∧ t = { s with keys := t.keys } ∧
    isPressed k t = b ∧ ∀ j, j ≠ k → isPressed j t = isPressed j s) ∧
  (∀ (b : Bool) (s : State), setDrawFlag b s = { s with draw := b })

/-! ## Display -/

/-- R101: every pixel 0, draw set, nothing else but pc. -/
def Obligations.ClearDisplay : Prop :=
  ∀ s : State, ∃ t, exec .cls s = .next t ∧ t = { s with fb := t.fb, draw := true, pc := s.pc + 2 } ∧
    ∀ x y, getPixel x y t = false

/-- R102, R103: a draw whose sprite bytes are in memory and whose set bits are on the grid or wrapped onto it flips exactly
the covered pixels, sets VF when a covered pixel was 1 before the instruction and else clears it, sets draw, and changes
nothing else but pc. The coordinates are the register values before VF is written. Bit 7 leftmost is the spec's own choice
(D6). -/
def Obligations.DrawFlipsTheCoveredPixels : Prop :=
  ∀ (x y : RegIdx) (n : Nibble) (s : State),
    (∀ r, r < n.toNat → s.effAddr r ≤ 4095) →
    (s.config.displayEdge = .wrap ∨
      ∀ r, r < n.toNat → ∀ c, c < 8 → s.BitFits (s.reg x).toNat (s.reg y).toNat r c) →
    ∃ t, exec (.drw x y n) s = .next t ∧
      t = { s with V := t.V, fb := t.fb, draw := true, pc := s.pc + 2 } ∧
      (∀ z, z ≠ 15 → t.reg z = s.reg z) ∧
      (∀ (px : Fin 64) (py : Fin 32),
        (s.Covers (s.reg x).toNat (s.reg y).toNat n.toNat px.val py.val → getPixel px py t = !getPixel px py s) ∧
        (¬ s.Covers (s.reg x).toNat (s.reg y).toNat n.toNat px.val py.val → getPixel px py t = getPixel px py s)) ∧
      ((∃ (px : Fin 64) (py : Fin 32), s.Covers (s.reg x).toNat (s.reg y).toNat n.toNat px.val py.val ∧
          getPixel px py s = true) → t.reg 15 = 1) ∧
      ((¬ ∃ (px : Fin 64) (py : Fin 32), s.Covers (s.reg x).toNat (s.reg y).toNat n.toNat px.val py.val ∧
          getPixel px py s = true) → t.reg 15 = 0)

/-- R102, R103, R205: a draw reports the first access that fails in loop order, a row's memory read before its pixels, and
leaves the state before the cycle but for the fault. -/
def Obligations.DrawFaultsInLoopOrder : Prop :=
  ∀ (x y : RegIdx) (n : Nibble) (s : State) (r : Nat), r < n.toNat →
    (∀ r', r' < r → s.effAddr r' ≤ 4095) →
    (s.config.displayEdge = .wrap ∨
      ∀ r', r' < r → ∀ c, c < 8 → s.BitFits (s.reg x).toNat (s.reg y).toNat r' c) →
    (4095 < s.effAddr r →
      exec (.drw x y n) s =
        .next (s.afterFault (.addressOutOfRange (.mem (s.effAddr r))) (some s.pc) (some (encode (.drw x y n))))) ∧
    (∀ c, c < 8 → s.effAddr r ≤ 4095 → s.config.displayEdge = .reject →
      (∀ c', c' < c → s.BitFits (s.reg x).toNat (s.reg y).toNat r c') →
      ¬ s.BitFits (s.reg x).toNat (s.reg y).toNat r c →
      exec (.drw x y n) s =
        .next (s.afterFault (.addressOutOfRange (.display ((s.reg x).toNat + c) ((s.reg y).toNat + r))) (some s.pc)
          (some (encode (.drw x y n)))))

/-- R102 corner case (d): drawing the same sprite again at the same coordinates (the registers as they were, since VF may be
one of them) restores the framebuffer, and the second draw gives VF = 1 exactly when the sprite covers a pixel that was 0
before the first. So it gives 1 for every sprite with a set bit drawn on clear pixels, which is what S4 and C8 say; where all
covered pixels were 1 before the first draw, R102's own operation gives 0 (log entry 14). -/
def Obligations.DrawingTwiceRestoresTheDisplay : Prop :=
  ∀ (x y : RegIdx) (n : Nibble) (s : State),
    (∀ r, r < n.toNat → s.effAddr r ≤ 4095) →
    (s.config.displayEdge = .wrap ∨
      ∀ r, r < n.toNat → ∀ c, c < 8 → s.BitFits (s.reg x).toNat (s.reg y).toNat r c) →
    ∃ t u, exec (.drw x y n) s = .next t ∧ exec (.drw x y n) { t with V := s.V } = .next u ∧ u.fb = s.fb ∧
      ((∃ (px : Fin 64) (py : Fin 32), s.Covers (s.reg x).toNat (s.reg y).toNat n.toNat px.val py.val ∧
          getPixel px py s = false) → u.reg 15 = 1) ∧
      ((¬ ∃ (px : Fin 64) (py : Fin 32), s.Covers (s.reg x).toNat (s.reg y).toNat n.toNat px.val py.val ∧
          getPixel px py s = false) → u.reg 15 = 0)

/-! ## Control flow -/

/-- R111, R24: a return pops the last saved address into pc and marks redraw; with none saved it is StackUnderflow. The
popped entry keeps its value. -/
def Obligations.ReturnPopsTheCallStack : Prop :=
  ∀ s : State,
    (∀ k : Fin 16, s.sp.val = k.val + 1 → ∃ t, exec .ret s = .next t ∧
      t = { s with pc := t.pc, sp := t.sp, draw := true } ∧ t.pc = s.stack[k] ∧ t.sp.val = k.val) ∧
    (s.sp.val = 0 → exec .ret s = .next (s.afterFault .stackUnderflow (some s.pc) (some 0x00EE)))

/-- R112, R118: 1nnn sets pc to nnn and Bnnn to nnn + V0, not reduced modulo 4096; nothing else changes. -/
def Obligations.JumpsSetPc : Prop :=
  ∀ (nnn : Addr) (s : State),
    (∃ t, exec (.jp nnn) s = .next t ∧ t = { s with pc := t.pc } ∧ t.pc.toNat = nnn.toNat) ∧
    (∃ t, exec (.jpV0 nnn) s = .next t ∧ t = { s with pc := t.pc } ∧ t.pc.toNat = nnn.toNat + (s.reg 0).toNat)

/-- R113, R24: a call saves the address of the instruction after it and goes to nnn; the seventeenth nested one is
StackOverflow. -/
def Obligations.CallPushesTheReturnAddress : Prop :=
  ∀ (nnn : Addr) (s : State),
    (∀ k : Fin 16, s.sp.val = k.val → ∃ t, exec (.call nnn) s = .next t ∧
      t = { s with pc := t.pc, sp := t.sp, stack := t.stack } ∧ t.pc.toNat = nnn.toNat ∧ t.sp.val = k.val + 1 ∧
      t.stack[k] = s.pc + 2 ∧ ∀ j : Fin 16, j ≠ k → t.stack[j] = s.stack[j]) ∧
    (s.sp.val = 16 →
      exec (.call nnn) s = .next (s.afterFault .stackOverflow (some s.pc) (some (encode (.call nnn)))))

/-- S7, R111, R113: a call and then a return lead to the instruction after the call, with the stack depth and every entry
but the one at that depth, which is dead, as before; that one keeps the pushed address. -/
def Obligations.CallThenReturnResumesAfterTheCall : Prop :=
  ∀ (nnn : Addr) (s : State), s.sp.val < 16 →
    ∃ t u, exec (.call nnn) s = .next t ∧ exec .ret t = .next u ∧ u.pc = s.pc + 2 ∧ u.sp = s.sp ∧
      u = { s with pc := u.pc, stack := u.stack, draw := true } ∧
      ∀ j : Fin 16, u.stack[j] = if j.val = s.sp.val then s.pc + 2 else s.stack[j]

/-- R114, R115: 3xnn and 4xnn end at a + 4 when their condition holds and at a + 2 when not; nothing else changes. -/
def Obligations.SkipOnImmediate : Prop :=
  ∀ (x : RegIdx) (nn : Byte) (s : State),
    exec (.seVxNn x nn) s = .next { s with pc := if s.reg x = nn then s.pc + 4 else s.pc + 2 } ∧
    exec (.sneVxNn x nn) s = .next { s with pc := if s.reg x = nn then s.pc + 2 else s.pc + 4 }

/-- R116, R117: 5xy0 and 9xy0 end at a + 4 when their condition holds and at a + 2 when not; nothing else changes. -/
def Obligations.SkipOnRegisters : Prop :=
  ∀ (x y : RegIdx) (s : State),
    exec (.seVxVy x y) s = .next { s with pc := if s.reg x = s.reg y then s.pc + 4 else s.pc + 2 } ∧
    exec (.sneVxVy x y) s = .next { s with pc := if s.reg x = s.reg y then s.pc + 2 else s.pc + 4 }

/-- R247: at a word that jumps to its own address a cycle leaves the entire state unchanged. -/
def Obligations.SelfJumpChangesNothing : Prop :=
  ∀ s : State, s.run = .running → s.schedule = [] → s.SelfJump → step s = .next s

/-! ## Register arithmetic -/

/-- R132, R134: 6xnn and 8xy0 write Vx and nothing else but pc. -/
def Obligations.RegisterLoads : Prop :=
  ∀ (x y : RegIdx) (nn : Byte) (s : State),
    (∃ t, exec (.ldVxNn x nn) s = .next t ∧ KeepsAllButRegs s t ∧ t.pc = s.pc + 2 ∧ t.reg x = nn ∧
      ∀ z, z ≠ x → t.reg z = s.reg z) ∧
    (∃ t, exec (.ldVxVy x y) s = .next t ∧ KeepsAllButRegs s t ∧ t.pc = s.pc + 2 ∧ t.reg x = s.reg y ∧
      ∀ z, z ≠ x → t.reg z = s.reg z)

/-- R133: 7xnn adds modulo 256; VF is not written unless it is Vx. -/
def Obligations.AddImmediate : Prop :=
  ∀ (x : RegIdx) (nn : Byte) (s : State), ∃ t, exec (.addVxNn x nn) s = .next t ∧ KeepsAllButRegs s t ∧
    t.pc = s.pc + 2 ∧ (t.reg x).toNat = ((s.reg x).toNat + nn.toNat) % 256 ∧ ∀ z, z ≠ x → t.reg z = s.reg z

/-- R135, R136, R137: the bitwise operations, bit by bit; VF is not written unless it is Vx. -/
def Obligations.BitwiseLogic : Prop :=
  ∀ (x y : RegIdx) (s : State),
    (∃ t, exec (.or x y) s = .next t ∧ KeepsAllButRegs s t ∧ t.pc = s.pc + 2 ∧
      (∀ b, (t.reg x).getLsbD b = ((s.reg x).getLsbD b || (s.reg y).getLsbD b)) ∧ ∀ z, z ≠ x → t.reg z = s.reg z) ∧
    (∃ t, exec (.and x y) s = .next t ∧ KeepsAllButRegs s t ∧ t.pc = s.pc + 2 ∧
      (∀ b, (t.reg x).getLsbD b = ((s.reg x).getLsbD b && (s.reg y).getLsbD b)) ∧ ∀ z, z ≠ x → t.reg z = s.reg z) ∧
    (∃ t, exec (.xor x y) s = .next t ∧ KeepsAllButRegs s t ∧ t.pc = s.pc + 2 ∧
      (∀ b, (t.reg x).getLsbD b = xor ((s.reg x).getLsbD b) ((s.reg y).getLsbD b)) ∧ ∀ z, z ≠ x → t.reg z = s.reg z)

/-- R138, R131, R21: Vx takes the sum modulo 256 and VF, written after it, whether the sum exceeds 255. With x = 15 the sum
is lost; with y = 15 the old VF is the addend. The order of the writes is the spec's decision D9 (log entry 11). -/
def Obligations.AddWithCarry : Prop :=
  ∀ (x y : RegIdx) (s : State), ∃ t, exec (.addVxVy x y) s = .next t ∧ KeepsAllButRegs s t ∧ t.pc = s.pc + 2 ∧
    (x ≠ 15 → (t.reg x).toNat = ((s.reg x).toNat + (s.reg y).toNat) % 256) ∧
    t.reg 15 = (if (s.reg x).toNat + (s.reg y).toNat > 255 then 1 else 0) ∧
    ∀ z, z ≠ x → z ≠ 15 → t.reg z = s.reg z

/-- R139, R131, R21: `f` is 1 exactly when Vx > Vy, strictly. VF is written first, so with VF as an operand the subtraction
sees `f` in it. -/
def Obligations.Subtract : Prop :=
  ∀ (x y : RegIdx) (s : State), ∃ (t : State) (f : Byte), exec (.sub x y) s = .next t ∧ KeepsAllButRegs s t ∧
    t.pc = s.pc + 2 ∧ f = (if (s.reg x).toNat > (s.reg y).toNat then 1 else 0) ∧
    (x ≠ 15 → y ≠ 15 → t.reg 15 = f ∧ (t.reg x).toNat = ((s.reg x).toNat + 256 - (s.reg y).toNat) % 256) ∧
    (x = 15 → y ≠ 15 → (t.reg 15).toNat = (f.toNat + 256 - (s.reg y).toNat) % 256) ∧
    (x ≠ 15 → y = 15 → t.reg 15 = f ∧ (t.reg x).toNat = ((s.reg x).toNat + 256 - f.toNat) % 256) ∧
    (x = 15 → y = 15 → t.reg 15 = 0) ∧
    ∀ z, z ≠ x → z ≠ 15 → t.reg z = s.reg z

/-- R141, R131, R21: `f` is 1 exactly when Vy > Vx, strictly. VF is written first, so with VF as an operand the subtraction
sees `f` in it. -/
def Obligations.SubtractReversed : Prop :=
  ∀ (x y : RegIdx) (s : State), ∃ (t : State) (f : Byte), exec (.subn x y) s = .next t ∧ KeepsAllButRegs s t ∧
    t.pc = s.pc + 2 ∧ f = (if (s.reg y).toNat > (s.reg x).toNat then 1 else 0) ∧
    (x ≠ 15 → y ≠ 15 → t.reg 15 = f ∧ (t.reg x).toNat = ((s.reg y).toNat + 256 - (s.reg x).toNat) % 256) ∧
    (x = 15 → y ≠ 15 → (t.reg 15).toNat = ((s.reg y).toNat + 256 - f.toNat) % 256) ∧
    (x ≠ 15 → y = 15 → t.reg 15 = f ∧ (t.reg x).toNat = (f.toNat + 256 - (s.reg x).toNat) % 256) ∧
    (x = 15 → y = 15 → t.reg 15 = 0) ∧
    ∀ z, z ≠ x → z ≠ 15 → t.reg z = s.reg z

/-- R140, R131: Vx is halved and VF takes its old bit 0; with x = 15 VF ends 0. Vy is neither read nor written. -/
def Obligations.ShiftRight : Prop :=
  ∀ (x y : RegIdx) (s : State), ∃ t, exec (.shr x y) s = .next t ∧ KeepsAllButRegs s t ∧ t.pc = s.pc + 2 ∧
    (x ≠ 15 → (t.reg x).toNat = (s.reg x).toNat / 2 ∧ (t.reg 15).toNat = (s.reg x).toNat % 2) ∧
    (x = 15 → t.reg 15 = 0) ∧ ∀ z, z ≠ x → z ≠ 15 → t.reg z = s.reg z

/-- R142, R131: Vx is doubled modulo 256 and VF takes its old bit 7; with x = 15 VF ends as twice that bit. Vy is neither
read nor written. -/
def Obligations.ShiftLeft : Prop :=
  ∀ (x y : RegIdx) (s : State), ∃ t, exec (.shl x y) s = .next t ∧ KeepsAllButRegs s t ∧ t.pc = s.pc + 2 ∧
    (x ≠ 15 → (t.reg x).toNat = (s.reg x).toNat * 2 % 256 ∧ (t.reg 15).toNat = (s.reg x).toNat / 128) ∧
    (x = 15 → (t.reg 15).toNat = 2 * ((s.reg 15).toNat / 128)) ∧ ∀ z, z ≠ x → z ≠ 15 → t.reg z = s.reg z

/-- R143: Vx takes the drawn byte and nn, so it has no bit that nn has not, and 0 when nn is 0. The byte is the free value
Config.draw8 of the model's draw counter, which goes on by one (log entry 2): nothing is known of it, so this holds
whatever it is. -/
def Obligations.RandomByteIsMasked : Prop :=
  ∀ (x : RegIdx) (nn : Byte) (s : State), ∃ t, exec (.rnd x nn) s = .next t ∧
    t = { s with V := t.V, pc := s.pc + 2, draws := s.draws + 1 } ∧ t.reg x = Config.draw8 s.draws &&& nn ∧
    (∀ b, (t.reg x).getLsbD b = true → nn.getLsbD b = true) ∧ (nn = 0 → t.reg x = 0) ∧
    ∀ z, z ≠ x → t.reg z = s.reg z

/-! ## Index register, loads and stores -/

/-- R151, R152, R153: Annn, Fx1E and Fx29 write I (zero-extended; modulo 65536; the whole of Vx times 5) and nothing else
but pc. -/
def Obligations.IndexRegisterWrites : Prop :=
  ∀ (nnn : Addr) (x : RegIdx) (s : State),
    (∃ t, exec (.ldINnn nnn) s = .next t ∧ t = { s with I := t.I, pc := s.pc + 2 } ∧ t.I.toNat = nnn.toNat) ∧
    (∃ t, exec (.addIVx x) s = .next t ∧ t = { s with I := t.I, pc := s.pc + 2 } ∧
      t.I.toNat = (s.I.toNat + (s.reg x).toNat) % 65536) ∧
    (∃ t, exec (.ldFVx x) s = .next t ∧ t = { s with I := t.I, pc := s.pc + 2 } ∧ t.I.toNat = (s.reg x).toNat * 5)

/-- R154, R86: Fx30 changes nothing but pc, for every x. -/
def Obligations.ReservedInstructionDoesNothing : Prop :=
  ∀ (x : RegIdx) (s : State), exec (.ldHfVx x) s = .next { s with pc := s.pc + 2 }

/-- R155: Fx33 stores hundreds, tens and ones at I, I+1, I+2; if one of them is above 4095 it faults on the first that is,
and nothing is stored. -/
def Obligations.StoreDecimalDigits : Prop :=
  ∀ (x : RegIdx) (s : State),
    (s.effAddr 2 ≤ 4095 → ∃ t, exec (.ldBVx x) s = .next t ∧ t = { s with mem := t.mem, pc := s.pc + 2 } ∧
      (t.byteAt (s.effAddr 0)).toNat = (s.reg x).toNat / 100 ∧
      (t.byteAt (s.effAddr 1)).toNat = (s.reg x).toNat / 10 % 10 ∧
      (t.byteAt (s.effAddr 2)).toNat = (s.reg x).toNat % 10 ∧
      ∀ a, (∀ k, k < 3 → a ≠ s.effAddr k) → t.byteAt a = s.byteAt a) ∧
    (4095 < s.effAddr 2 → exec (.ldBVx x) s =
      .next (s.afterFault (.addressOutOfRange (.mem (max s.I.toNat 4096))) (some s.pc) (some (encode (.ldBVx x)))))

/-- R156: Fx55 stores V0 to Vx at I upward and leaves I and the registers; if I + x is above 4095 it faults on the first
address that is, and nothing is stored. -/
def Obligations.StoreRegisters : Prop :=
  ∀ (x : RegIdx) (s : State),
    (s.effAddr x.toNat ≤ 4095 → ∃ t, exec (.ldMemVx x) s = .next t ∧ t = { s with mem := t.mem, pc := s.pc + 2 } ∧
      (∀ z : RegIdx, z.toNat ≤ x.toNat → t.byteAt (s.effAddr z.toNat) = s.reg z) ∧
      ∀ a, (∀ k, k ≤ x.toNat → a ≠ s.effAddr k) → t.byteAt a = s.byteAt a) ∧
    (4095 < s.effAddr x.toNat → exec (.ldMemVx x) s =
      .next (s.afterFault (.addressOutOfRange (.mem (max s.I.toNat 4096))) (some s.pc) (some (encode (.ldMemVx x)))))

/-- R157: Fx65 loads V0 to Vx from I upward and leaves I, memory and the other registers; if I + x is above 4095 it faults
on the first address that is, and no register changes. -/
def Obligations.LoadRegisters : Prop :=
  ∀ (x : RegIdx) (s : State),
    (s.effAddr x.toNat ≤ 4095 → ∃ t, exec (.ldVxMem x) s = .next t ∧ KeepsAllButRegs s t ∧ t.pc = s.pc + 2 ∧
      (∀ z : RegIdx, z.toNat ≤ x.toNat → t.reg z = s.byteAt (s.effAddr z.toNat)) ∧
      ∀ z : RegIdx, x.toNat < z.toNat → t.reg z = s.reg z) ∧
    (4095 < s.effAddr x.toNat → exec (.ldVxMem x) s =
      .next (s.afterFault (.addressOutOfRange (.mem (max s.I.toNat 4096))) (some s.pc) (some (encode (.ldVxMem x)))))

/-- R64, R54: the bytes that Fx55 stores where the next instruction stands are what the next fetch reads, V0 as the high
byte. -/
def Obligations.StoredBytesAreFetched : Prop :=
  ∀ (x : RegIdx) (s : State), 1 ≤ x.toNat → s.effAddr x.toNat ≤ 4095 → s.I = s.pc + 2 →
    ∃ t, exec (.ldMemVx x) s = .next t ∧ t.fetch = .ok (wordOfBytes (s.reg 0) (s.reg 1))

/-! ## Keys and timers -/

/-- R171, R172: Ex9E and ExA1 skip on the flag of the key that the value of Vx names; a value above 15 is out of range.
Nothing else changes. -/
def Obligations.SkipOnKey : Prop :=
  ∀ (x : RegIdx) (s : State),
    (∀ k : Fin 16, (s.reg x).toNat = k.val →
      exec (.skp x) s = .next { s with pc := if isPressed k s = true then s.pc + 4 else s.pc + 2 } ∧
      exec (.sknp x) s = .next { s with pc := if isPressed k s = true then s.pc + 2 else s.pc + 4 }) ∧
    (15 < (s.reg x).toNat →
      exec (.skp x) s =
        .next (s.afterFault (.addressOutOfRange (.key (s.reg x).toNat)) (some s.pc) (some (encode (.skp x)))) ∧
      exec (.sknp x) s =
        .next (s.afterFault (.addressOutOfRange (.key (s.reg x).toNat)) (some s.pc) (some (encode (.sknp x)))))

/-- R173, R175, R176: Fx07 reads DT into Vx; Fx15 and Fx18 write the timers from Vx; nothing else changes but pc, and
nothing is put out. -/
def Obligations.TimerAccess : Prop :=
  ∀ (x : RegIdx) (s : State),
    (∃ t, exec (.ldVxDt x) s = .next t ∧ KeepsAllButRegs s t ∧ t.pc = s.pc + 2 ∧ t.reg x = s.DT ∧
      ∀ z, z ≠ x → t.reg z = s.reg z) ∧
    exec (.ldDtVx x) s = .next { s with DT := s.reg x, pc := s.pc + 2 } ∧
    exec (.ldStVx x) s = .next { s with ST := s.reg x, pc := s.pc + 2 }

/-- R174: with no key pressed the cycle leaves the whole state as it was; else the lowest-numbered pressed key goes to Vx and
only its flag is cleared. -/
def Obligations.WaitForKey : Prop :=
  ∀ (x : RegIdx) (s : State),
    ((∀ k, isPressed k s = false) → exec (.ldVxK x) s = .next s) ∧
    (∀ k : Fin 16, isPressed k s = true → (∀ j : Fin 16, j < k → isPressed j s = false) →
      ∃ t, exec (.ldVxK x) s = .next t ∧ t = { s with V := t.V, keys := t.keys, pc := s.pc + 2 } ∧
        (t.reg x).toNat = k.val ∧ (∀ z, z ≠ x → t.reg z = s.reg z) ∧
        isPressed k t = false ∧ ∀ j, j ≠ k → isPressed j t = isPressed j s)

/-! ## Rules about every instruction and every step -/

/-- R10, R20, R21: a register that is not among the instruction's destinations keeps its value, whether the cycle completes
or faults. -/
def Obligations.OnlyDestinationRegistersChange : Prop :=
  ∀ (i : Instr) (s t : State), exec i s = .next t → ∀ z, z ∉ writtenRegs i → t.reg z = s.reg z

/-- R10, R158, R65: a byte of memory outside the bytes that Fx33 or Fx55 store from I upward reads as before; every other
instruction leaves every byte. -/
def Obligations.OnlyStoredBytesChange : Prop :=
  ∀ (i : Instr) (s t : State), exec i s = .next t →
    ∀ a, (∀ k, k < storedBytes i → a ≠ s.effAddr k) → t.byteAt a = s.byteAt a

/-- R10: I is changed by Annn, Fx1E and Fx29 only, the timers by Fx15 and Fx18 only, keys by Fx0A only, the framebuffer by
00E0 and Dxyn only, draw by those and 00EE, the stack by 2nnn and 00EE; and no instruction changes the model's parameters or
schedule, nor, but for Cxnn, its draw counter. -/
def Obligations.OnlyNamedStateChanges : Prop :=
  ∀ (i : Instr) (s t : State), exec i s = .next t →
    ((∀ a, i ≠ .ldINnn a) → (∀ x, i ≠ .addIVx x) → (∀ x, i ≠ .ldFVx x) → t.I = s.I) ∧
    ((∀ x, i ≠ .ldDtVx x) → t.DT = s.DT) ∧ ((∀ x, i ≠ .ldStVx x) → t.ST = s.ST) ∧
    ((∀ x, i ≠ .ldVxK x) → t.keys = s.keys) ∧
    (i ≠ .cls → (∀ x y n, i ≠ .drw x y n) → t.fb = s.fb ∧ (i ≠ .ret → t.draw = s.draw)) ∧
    ((∀ a, i ≠ .call a) → t.stack = s.stack ∧ (i ≠ .ret → t.sp = s.sp)) ∧
    ((∀ x nn, i ≠ .rnd x nn) → t.draws = s.draws) ∧ t.config = s.config ∧ t.schedule = s.schedule

/-- R25, R29: no instruction reads the sound timer or the redraw flag: from a state that differs in these alone, an
instruction leads to a state that differs in these alone. -/
def Obligations.SoundTimerAndRedrawFlagAreNotRead : Prop :=
  ∀ (i : Instr) (s t : State) (b : Bool) (v : Byte), exec i s = .next t →
    ∃ t', exec i { s with draw := b, ST := v } = .next t' ∧ t' = { t with draw := t'.draw, ST := t'.ST }

/-- R6, log entry 3: no step of any agent changes the parameters. -/
def Obligations.ParametersNeverChange : Prop :=
  ∀ s t : State, step s = .next t → t.config = s.config

/-- Every step of every agent keeps memory in its canonical form: rising addresses inside 0 to 4095 (R50, R51), no entry
equal to what its address reads as unlisted. -/
def Obligations.EveryStepKeepsMemoryCanonical : Prop :=
  ∀ s t : State, s.MemCanonical → step s = .next t → t.MemCanonical

/-- R203, R204: every step of every agent keeps a core with a fault record Halted: no step resumes it. -/
def Obligations.EveryStepKeepsFaultedCoreHalted : Prop :=
  ∀ s t : State, s.FaultHalts → step s = .next t → t.FaultHalts

/-- R23, R111: every step of every agent keeps pc at most 0x10FE and every saved return address at most 4096, so pc
arithmetic never wraps. -/
def Obligations.EveryStepKeepsPcBounded : Prop :=
  ∀ s t : State, s.PcBounded → step s = .next t → t.PcBounded
end

