-- ==== Sys2Proof/Laws/Decode.lean ====
section
/-! SUPPORT. The operand fields as numbers, of an encoded word, and a word put together again from its fields (rules R81,
R82); the two bytes of a word (rule R53). -/

namespace Sys2Proof

/-! The fields of a word as numbers. -/

theorem fieldTop_toNat (w : Word) : (fieldTop w).toNat = w.toNat / 4096 := by
  have := w.isLt
  simp only [fieldTop, BitVec.extractLsb'_toNat, Nat.shiftRight_eq_div_pow]
  omega

theorem fieldX_toNat (w : Word) : (fieldX w).toNat = w.toNat / 256 % 16 := by
  simp only [fieldX, BitVec.extractLsb'_toNat, Nat.shiftRight_eq_div_pow]

theorem fieldY_toNat (w : Word) : (fieldY w).toNat = w.toNat / 16 % 16 := by
  simp only [fieldY, BitVec.extractLsb'_toNat, Nat.shiftRight_eq_div_pow]

theorem fieldN_toNat (w : Word) : (fieldN w).toNat = w.toNat % 16 := by
  simp only [fieldN, BitVec.extractLsb'_toNat, Nat.shiftRight_eq_div_pow]
  omega

theorem fieldNn_toNat (w : Word) : (fieldNn w).toNat = w.toNat % 256 := by
  simp only [fieldNn, BitVec.extractLsb'_toNat, Nat.shiftRight_eq_div_pow]
  omega

theorem fieldNnn_toNat (w : Word) : (fieldNnn w).toNat = w.toNat % 4096 := by
  simp only [fieldNnn, BitVec.extractLsb'_toNat, Nat.shiftRight_eq_div_pow]
  omega

/-! The words of the formats as numbers. -/

theorem encodeA_toNat (t : Nibble) (a : Addr) : (encodeA t a).toNat = t.toNat * 4096 + a.toNat := by
  have h1 := t.isLt
  have h2 := a.isLt
  simp only [encodeA, BitVec.toNat_ofNat]
  omega

theorem encodeI_toNat (t : Nibble) (x : RegIdx) (k : Byte) :
    (encodeI t x k).toNat = t.toNat * 4096 + x.toNat * 256 + k.toNat := by
  have h1 := t.isLt
  have h2 := x.isLt
  have h3 := k.isLt
  simp only [encodeI, BitVec.toNat_ofNat]
  omega

theorem encodeR_toNat (t : Nibble) (x y : RegIdx) (n : Nibble) :
    (encodeR t x y n).toNat = t.toNat * 4096 + x.toNat * 256 + y.toNat * 16 + n.toNat := by
  have h1 := t.isLt
  have h2 := x.isLt
  have h3 := y.isLt
  have h4 := n.isLt
  simp only [encodeR, BitVec.toNat_ofNat]
  omega

/-! The fields of an encoded word. -/

@[simp] theorem fieldTop_encodeA (t : Nibble) (a : Addr) : fieldTop (encodeA t a) = t := by
  have h := a.isLt
  apply BitVec.eq_of_toNat_eq
  rw [fieldTop_toNat, encodeA_toNat]
  omega

@[simp] theorem fieldNnn_encodeA (t : Nibble) (a : Addr) : fieldNnn (encodeA t a) = a := by
  have h := a.isLt
  apply BitVec.eq_of_toNat_eq
  rw [fieldNnn_toNat, encodeA_toNat]
  omega

@[simp] theorem fieldTop_encodeI (t : Nibble) (x : RegIdx) (k : Byte) : fieldTop (encodeI t x k) = t := by
  have h1 := x.isLt
  have h2 := k.isLt
  apply BitVec.eq_of_toNat_eq
  rw [fieldTop_toNat, encodeI_toNat]
  omega

@[simp] theorem fieldX_encodeI (t : Nibble) (x : RegIdx) (k : Byte) : fieldX (encodeI t x k) = x := by
  have h1 := x.isLt
  have h2 := k.isLt
  apply BitVec.eq_of_toNat_eq
  rw [fieldX_toNat, encodeI_toNat]
  omega

@[simp] theorem fieldNn_encodeI (t : Nibble) (x : RegIdx) (k : Byte) : fieldNn (encodeI t x k) = k := by
  have h1 := x.isLt
  have h2 := k.isLt
  apply BitVec.eq_of_toNat_eq
  rw [fieldNn_toNat, encodeI_toNat]
  omega

@[simp] theorem fieldTop_encodeR (t : Nibble) (x y : RegIdx) (n : Nibble) : fieldTop (encodeR t x y n) = t := by
  have h1 := x.isLt
  have h2 := y.isLt
  have h3 := n.isLt
  apply BitVec.eq_of_toNat_eq
  rw [fieldTop_toNat, encodeR_toNat]
  omega

@[simp] theorem fieldX_encodeR (t : Nibble) (x y : RegIdx) (n : Nibble) : fieldX (encodeR t x y n) = x := by
  have h1 := x.isLt
  have h2 := y.isLt
  have h3 := n.isLt
  apply BitVec.eq_of_toNat_eq
  rw [fieldX_toNat, encodeR_toNat]
  omega

@[simp] theorem fieldY_encodeR (t : Nibble) (x y : RegIdx) (n : Nibble) : fieldY (encodeR t x y n) = y := by
  have h2 := y.isLt
  have h3 := n.isLt
  apply BitVec.eq_of_toNat_eq
  rw [fieldY_toNat, encodeR_toNat]
  omega

@[simp] theorem fieldN_encodeR (t : Nibble) (x y : RegIdx) (n : Nibble) : fieldN (encodeR t x y n) = n := by
  have h3 := n.isLt
  apply BitVec.eq_of_toNat_eq
  rw [fieldN_toNat, encodeR_toNat]
  omega

/-! A word put together again from its fields. -/

theorem encodeA_fields (w : Word) : encodeA (fieldTop w) (fieldNnn w) = w := by
  apply BitVec.eq_of_toNat_eq
  rw [encodeA_toNat, fieldTop_toNat, fieldNnn_toNat]
  omega

theorem encodeI_fields (w : Word) : encodeI (fieldTop w) (fieldX w) (fieldNn w) = w := by
  apply BitVec.eq_of_toNat_eq
  rw [encodeI_toNat, fieldTop_toNat, fieldX_toNat, fieldNn_toNat]
  omega

theorem encodeR_fields (w : Word) : encodeR (fieldTop w) (fieldX w) (fieldY w) (fieldN w) = w := by
  apply BitVec.eq_of_toNat_eq
  rw [encodeR_toNat, fieldTop_toNat, fieldX_toNat, fieldY_toNat, fieldN_toNat]
  omega

/-! The bytes of a word (R53). -/

theorem wordOfBytes_toNat (hi lo : Byte) : (wordOfBytes hi lo).toNat = hi.toNat * 256 + lo.toNat := by
  have h1 := hi.isLt
  have h2 := lo.isLt
  simp only [wordOfBytes, BitVec.toNat_ofNat]
  omega

theorem highByte_toNat (w : Word) : (highByte w).toNat = w.toNat / 256 := by
  have := w.isLt
  simp only [highByte, BitVec.extractLsb'_toNat, Nat.shiftRight_eq_div_pow]
  omega

theorem lowByte_toNat (w : Word) : (lowByte w).toNat = w.toNat % 256 := by
  simp only [lowByte, BitVec.extractLsb'_toNat, Nat.shiftRight_eq_div_pow]
  omega

@[simp] theorem wordOfBytes_bytes (w : Word) : wordOfBytes (highByte w) (lowByte w) = w := by
  apply BitVec.eq_of_toNat_eq
  rw [wordOfBytes_toNat, highByte_toNat, lowByte_toNat]
  omega

/-! A word under the masks of the opcode map, as a number (R84). -/

/-- The mask of the first digit keeps it and clears the rest. -/
theorem and_high (w : Word) : (w &&& 0xF000#16).toNat = w.toNat / 4096 * 4096 := by
  have h : w &&& 0xF000#16 = (w >>> 12) <<< 12 := by
    ext i hi
    have : i = 0 ∨ i = 1 ∨ i = 2 ∨ i = 3 ∨ i = 4 ∨ i = 5 ∨ i = 6 ∨ i = 7 ∨ i = 8 ∨ i = 9 ∨ i = 10 ∨ i = 11 ∨ i = 12 ∨
      i = 13 ∨ i = 14 ∨ i = 15 := by omega
    rcases this with rfl | rfl | rfl | rfl | rfl | rfl | rfl | rfl | rfl | rfl | rfl | rfl | rfl | rfl | rfl | rfl <;>
      simp
  have := w.isLt
  rw [h, BitVec.toNat_shiftLeft, BitVec.toNat_ushiftRight, Nat.shiftRight_eq_div_pow, Nat.shiftLeft_eq]
  omega

/-- A mask of low bits keeps them. -/
theorem and_low (w : Word) (k : Nat) (hk : k < 16) : (w &&& BitVec.ofNat 16 (2 ^ k - 1)).toNat = w.toNat % 2 ^ k := by
  have h1 : 2 ^ k < 2 ^ 16 := Nat.pow_lt_pow_right (by omega) hk
  have h2 := Nat.two_pow_pos k
  rw [BitVec.toNat_and, BitVec.toNat_ofNat, Nat.mod_eq_of_lt (by omega), Nat.and_two_pow_sub_one_eq_mod]

/-- Disjoint masks keep disjoint parts. -/
theorem and_split (w a b : Word) (h : a &&& b = 0) : (w &&& (a ||| b)).toNat = (w &&& a).toNat + (w &&& b).toNat := by
  have h0 : (w &&& a) &&& (w &&& b) = 0 := by
    rw [BitVec.and_assoc, ← BitVec.and_assoc a, BitVec.and_comm a w, BitVec.and_assoc w a, h]; simp
  have h1 : w &&& (a ||| b) = (w &&& a) ||| (w &&& b) := by
    ext i hi; simp [Bool.and_or_distrib_left]
  rw [h1, BitVec.toNat_or]
  have h2 := congrArg BitVec.toNat h0
  rw [BitVec.toNat_and] at h2
  have := BitVec.add_eq_or_of_and_eq_zero _ _ h0
  have h3 := congrArg BitVec.toNat this
  rw [BitVec.toNat_or, BitVec.toNat_add_of_and_eq_zero h0] at h3
  exact h3.symm
/-- The mask 0xF00F keeps the first and the last digit. -/
theorem and_F00F (w : Word) : (w &&& 0xF00F#16).toNat = w.toNat / 4096 * 4096 + w.toNat % 16 := by
  have h := and_split w 0xF000#16 0x000F#16 (by decide)
  rw [and_high, show (0x000F#16 : Word) = BitVec.ofNat 16 (2 ^ 4 - 1) from rfl, and_low w 4 (by decide)] at h
  exact h

/-- The mask 0xF0FF keeps the first digit and the last two. -/
theorem and_F0FF (w : Word) : (w &&& 0xF0FF#16).toNat = w.toNat / 4096 * 4096 + w.toNat % 256 := by
  have h := and_split w 0xF000#16 0x00FF#16 (by decide)
  rw [and_high, show (0x00FF#16 : Word) = BitVec.ofNat 16 (2 ^ 8 - 1) from rfl, and_low w 8 (by decide)] at h
  exact h

/-- The mask 0xFFFF keeps the word. -/
theorem and_FFFF (w : Word) : w &&& 0xFFFF#16 = w := BitVec.and_allOnes (w := 16)

/-! The encoded words under their rows' masks (R84). -/

theorem encodeA_and (t : Nibble) (a : Addr) : encodeA t a &&& 0xF000#16 = encodeA t 0#12 := by
  have h := a.isLt
  apply BitVec.eq_of_toNat_eq
  rw [and_high, encodeA_toNat, encodeA_toNat, BitVec.toNat_zero]
  omega

theorem encodeI_and (t : Nibble) (x : RegIdx) (k : Byte) : encodeI t x k &&& 0xF000#16 = encodeI t 0#4 0#8 := by
  have h1 := x.isLt
  have h2 := k.isLt
  apply BitVec.eq_of_toNat_eq
  rw [and_high, encodeI_toNat, encodeI_toNat]
  simp only [BitVec.toNat_zero]
  omega

theorem encodeI_and_function (t : Nibble) (x : RegIdx) (k : Byte) : encodeI t x k &&& 0xF0FF#16 = encodeI t 0#4 k := by
  have h1 := x.isLt
  have h2 := k.isLt
  apply BitVec.eq_of_toNat_eq
  rw [and_F0FF, encodeI_toNat, encodeI_toNat]
  simp only [BitVec.toNat_zero]
  omega

theorem encodeR_and (t : Nibble) (x y : RegIdx) (n : Nibble) : encodeR t x y n &&& 0xF000#16 = encodeR t 0#4 0#4 0#4 := by
  have h1 := x.isLt
  have h2 := y.isLt
  have h3 := n.isLt
  apply BitVec.eq_of_toNat_eq
  rw [and_high, encodeR_toNat, encodeR_toNat]
  simp only [BitVec.toNat_zero]
  omega

theorem encodeR_and_function (t : Nibble) (x y : RegIdx) (n : Nibble) :
    encodeR t x y n &&& 0xF00F#16 = encodeR t 0#4 0#4 n := by
  have h1 := x.isLt
  have h2 := y.isLt
  have h3 := n.isLt
  apply BitVec.eq_of_toNat_eq
  rw [and_F00F, encodeR_toNat, encodeR_toNat]
  simp only [BitVec.toNat_zero]
  omega

end Sys2Proof
end

