-- ==== Sys2Proof/Laws/Memory.lean ====
section
/-! SUPPORT. Memory: a read after a write, the canonical form kept by every operation, and equal reads make equal
canonical memories. -/

namespace Sys2Proof.Machine

/-! Lookup through the list operations. -/

theorem Memory.lookup_erase (a b : Nat) (m : Memory) :
    Memory.lookup b (Memory.erase a m) = if b = a then none else Memory.lookup b m := by
  induction m with
  | nil => simp [Memory.erase, Memory.lookup]
  | cons e m ih =>
    unfold Memory.erase at ih ⊢
    by_cases h : e.1 = a
    · simp only [List.filter_cons, h, bne_self_eq_false, Bool.false_eq_true, if_false, ih, Memory.lookup]
      by_cases hb : b = a
      · simp [hb]
      · simp [hb, Ne.symm hb]
    · have : (e.1 != a) = true := by simp [h]
      simp only [List.filter_cons, this, if_true, Memory.lookup, ih]
      by_cases hb : e.1 = b
      · simp [hb, hb ▸ h]
      · simp [hb]

theorem Memory.lookup_insert (a b : Nat) (v : Byte) (m : Memory) (h : Memory.lookup a m = none) :
    Memory.lookup b (Memory.insert a v m) = if b = a then some v else Memory.lookup b m := by
  induction m with
  | nil => simp [Memory.insert, Memory.lookup, eq_comm]
  | cons e m ih =>
    simp only [Memory.lookup] at h
    split at h
    · cases h
    · rename_i hne
      simp only [Memory.insert]
      split
      · simp only [Memory.lookup, eq_comm]
      · simp only [Memory.lookup, ih h]
        by_cases hb : e.1 = b
        · simp [hb, hb ▸ hne]
        · simp [hb]

/-- A byte written is read back, and every other address reads as before (R51, R59). -/
theorem Memory.read_write (c : Config) (m : Memory) (a b : Nat) (v : Byte) :
    Memory.read c (Memory.write c m a v) b = if b = a then v else Memory.read c m b := by
  have hn : Memory.lookup a (Memory.erase a m) = none := by simp [Memory.lookup_erase]
  unfold Memory.write Memory.read
  split
  · rename_i hv
    rw [Memory.lookup_erase]
    by_cases hb : b = a <;> simp [hb, hv]
  · rw [Memory.lookup_insert _ _ _ _ hn, Memory.lookup_erase]
    by_cases hb : b = a <;> simp [hb]

/-- Consecutive writes: the bytes at their addresses, every other address as before (R52). -/
theorem Memory.read_writeList (c : Config) (bs : List Byte) (m : Memory) (a b : Nat) :
    Memory.read c (Memory.writeList c m a bs) b =
      if a ≤ b then (bs[b - a]?).getD (Memory.read c m b) else Memory.read c m b := by
  induction bs generalizing m a with
  | nil => simp [Memory.writeList]
  | cons v bs ih =>
    rw [Memory.writeList, ih, Memory.read_write]
    rcases Nat.lt_trichotomy b a with h | h | h
    · have h1 : ¬ a + 1 ≤ b := by omega
      have h2 : ¬ a ≤ b := by omega
      have h3 : ¬ b = a := by omega
      simp [h1, h2, h3]
    · subst h
      simp
    · have h1 : a + 1 ≤ b := by omega
      have h2 : a ≤ b := by omega
      have h3 : ¬ b = a := by omega
      obtain ⟨k, rfl⟩ : ∃ k, b = a + 1 + k := ⟨b - (a + 1), by omega⟩
      have h4 : a + 1 + k - a = k + 1 := by omega
      simp [h1, h2, h3, h4]

/-! The canonical form. -/

theorem Memory.mem_insert {a : Nat} {v : Byte} {m : Memory} {e : Host.Cell} :
    e ∈ Memory.insert a v m ↔ e = (a, v) ∨ e ∈ m := by
  induction m with
  | nil => simp [Memory.insert]
  | cons f m ih =>
    simp only [Memory.insert]
    split
    · simp
    · simp only [List.mem_cons, ih]
      tauto

theorem Memory.pairwise_insert {a : Nat} {v : Byte} {m : Memory} (h : m.Pairwise (fun e f => e.1 < f.1))
    (ha : ∀ e ∈ m, e.1 ≠ a) : (Memory.insert a v m).Pairwise (fun e f => e.1 < f.1) := by
  induction m with
  | nil => simp [Memory.insert]
  | cons e m ih =>
    rw [List.pairwise_cons] at h
    simp only [Memory.insert]
    split
    · rename_i hlt
      refine List.pairwise_cons.mpr ⟨fun f hf => ?_, List.pairwise_cons.mpr h⟩
      rcases List.mem_cons.mp hf with rfl | hf
      · exact hlt
      · exact Nat.lt_trans hlt (h.1 f hf)
    · rename_i hge
      refine List.pairwise_cons.mpr ⟨fun f hf => ?_, ih h.2 fun f hf => ha f (List.mem_cons_of_mem _ hf)⟩
      rcases Memory.mem_insert.mp hf with rfl | hf
      · have := ha e List.mem_cons_self
        show e.1 < a
        omega
      · exact h.1 f hf

theorem Memory.erase_wf {c : Config} {m : Memory} (h : Memory.wf c m) (a : Nat) : Memory.wf c (Memory.erase a m) :=
  ⟨h.1.filter _, fun e he => h.2 e (List.mem_of_mem_filter he)⟩

/-- A write inside memory keeps the canonical form. -/
theorem Memory.write_wf {c : Config} {m : Memory} (h : Memory.wf c m) {a : Nat} (ha : a < 4096) (v : Byte) :
    Memory.wf c (Memory.write c m a v) := by
  have he := Memory.erase_wf h a
  unfold Memory.write
  split
  · exact he
  · rename_i hv
    refine ⟨Memory.pairwise_insert he.1 fun e hm => ?_, fun e hm => ?_⟩
    · have := (List.mem_filter.mp hm).2
      simpa using this
    · rcases Memory.mem_insert.mp hm with rfl | hm
      · exact ⟨ha, hv⟩
      · exact he.2 e hm

/-- Consecutive writes inside memory keep the canonical form. -/
theorem Memory.writeList_wf {c : Config} (bs : List Byte) {m : Memory} (h : Memory.wf c m) {a : Nat}
    (ha : a + bs.length ≤ 4096) : Memory.wf c (Memory.writeList c m a bs) := by
  induction bs generalizing m a with
  | nil => exact h
  | cons v bs ih =>
    simp only [List.length_cons] at ha
    exact ih (Memory.write_wf h (by omega) v) (by omega)

/-- `writeBlock` keeps the canonical form (R52). -/
theorem Memory.writeBlock_wf {c : Config} {m m' : Memory} (h : Memory.wf c m) {vs : List Byte} {a : Nat}
    (hw : Memory.writeBlock c m vs a = .ok m') : Memory.wf c m' := by
  unfold Memory.writeBlock at hw
  split at hw
  · cases hw
  · rename_i hlen
    cases hw
    exact Memory.writeList_wf vs h (by omega)

/-- `clearRange` inside memory keeps the canonical form (R52). -/
theorem Memory.clearRange_wf {c : Config} {m : Memory} (h : Memory.wf c m) {a b : Nat} (hab : a ≤ b) (hb : b < 4096) :
    Memory.wf c (Memory.clearRange c m a b) :=
  Memory.writeList_wf _ h (by simp only [List.length_replicate]; omega)

/-- The power-on contents are canonical. -/
theorem Memory.powerOn_wf (c : Config) : Memory.wf c Memory.powerOn := ⟨List.Pairwise.nil, by simp [Memory.powerOn]⟩

/-- The power-on contents read as FONT and zeros (R240). -/
theorem Memory.read_powerOn (c : Config) (a : Nat) : Memory.read c Memory.powerOn a = unlistedByte c a := rfl

/-- The power-on memory of the machine is canonical. -/
theorem Memory.reset_wf : Memory.wf State.reset.config State.reset.mem := Memory.powerOn_wf _

/-! Equal reads, equal memories. -/

theorem Memory.lookup_eq_none {a : Nat} {m : Memory} (h : ∀ e ∈ m, a < e.1) : Memory.lookup a m = none := by
  induction m with
  | nil => rfl
  | cons e m ih =>
    have h1 := h e List.mem_cons_self
    have h2 : ¬ e.1 = a := by omega
    simp only [Memory.lookup, h2, if_false]
    exact ih fun f hf => h f (List.mem_cons_of_mem _ hf)

/-- In a canonical memory a listed byte differs from what the address reads as when unlisted, so the list can be read
off. -/
theorem Memory.lookup_of_read {c : Config} {m m' : Memory} (h : Memory.wf c m) (h' : Memory.wf c m')
    (hr : ∀ a, Memory.read c m a = Memory.read c m' a) (a : Nat) : Memory.lookup a m = Memory.lookup a m' := by
  have key : ∀ {n : Memory}, Memory.wf c n → ∀ v, Memory.lookup a n = some v → v ≠ unlistedByte c a := by
    intro n hn v hv
    have : (a, v) ∈ n := by
      have hn2 := hn
      clear hn2 hn h h' hr
      induction n with
      | nil => cases hv
      | cons e n ih =>
        simp only [Memory.lookup] at hv
        split at hv
        · rename_i he
          cases hv
          exact List.mem_cons.mpr (.inl (Prod.ext he.symm rfl))
        · exact List.mem_cons_of_mem _ (ih hv)
    exact (hn.2 _ this).2
  have hra := hr a
  unfold Memory.read at hra
  cases hl : Memory.lookup a m with
  | none =>
    cases hl' : Memory.lookup a m' with
    | none => rfl
    | some v' =>
      rw [hl, hl'] at hra
      exact absurd hra.symm (key h' v' hl')
  | some v =>
    cases hl' : Memory.lookup a m' with
    | none =>
      rw [hl, hl'] at hra
      exact absurd hra (key h v hl)
    | some v' =>
      rw [hl, hl'] at hra
      exact congrArg some hra

/-- Rising lists with the same lookups are the same list. -/
theorem Memory.eq_of_lookup {m m' : Memory} (h : m.Pairwise (fun e f => e.1 < f.1))
    (h' : m'.Pairwise (fun e f => e.1 < f.1)) (hl : ∀ a, Memory.lookup a m = Memory.lookup a m') : m = m' := by
  induction m generalizing m' with
  | nil =>
    cases m' with
    | nil => rfl
    | cons f m' =>
      have := hl f.1
      simp [Memory.lookup] at this
  | cons e m ih =>
    cases m' with
    | nil =>
      have := hl e.1
      simp [Memory.lookup] at this
    | cons f m' =>
      rw [List.pairwise_cons] at h h'
      have hef : e.1 = f.1 := by
        rcases Nat.lt_trichotomy e.1 f.1 with hlt | heq | hgt
        · have h1 := hl e.1
          rw [Memory.lookup_eq_none (a := e.1) (m := f :: m')] at h1
          · simp [Memory.lookup] at h1
          · intro g hg
            rcases List.mem_cons.mp hg with rfl | hg
            · exact hlt
            · exact Nat.lt_trans hlt (h'.1 g hg)
        · exact heq
        · have h1 := hl f.1
          rw [Memory.lookup_eq_none (a := f.1) (m := e :: m)] at h1
          · simp [Memory.lookup] at h1
          · intro g hg
            rcases List.mem_cons.mp hg with rfl | hg
            · exact hgt
            · exact Nat.lt_trans hgt (h.1 g hg)
      have hv := hl e.1
      simp only [Memory.lookup, hef, if_true, Option.some.injEq] at hv
      have hcell : e = f := Prod.ext hef hv
      subst hcell
      congr 1
      refine ih h.2 h'.2 fun a => ?_
      by_cases ha : e.1 = a
      · subst ha
        rw [Memory.lookup_eq_none h.1, Memory.lookup_eq_none h'.1]
      · have := hl a
        simpa only [Memory.lookup, ha, if_false] using this

/-- Two canonical memories that read the same everywhere are the same list. -/
theorem Memory.ext_of_read {c : Config} {m m' : Memory} (h : Memory.wf c m) (h' : Memory.wf c m')
    (hr : ∀ a, Memory.read c m a = Memory.read c m' a) : m = m' :=
  Memory.eq_of_lookup h.1 h'.1 (Memory.lookup_of_read h h' hr)

end Sys2Proof.Machine
end

