-- ==== Sys2Proof/Laws/State.lean ====
section
/-! SUPPORT. One lemma per field per update of the state, each true by rfl, and what `reg` reads after a register write;
no later proof unfolds a record update. -/

namespace Sys2Proof.Machine

variable (s : State)

@[simp] theorem State.setReg_V (x : RegIdx) (v : Byte) : (s.setReg x v).V = s.V.set x.toNat v := rfl
@[simp] theorem State.setReg_I (x : RegIdx) (v : Byte) : (s.setReg x v).I = s.I := rfl
@[simp] theorem State.setReg_pc (x : RegIdx) (v : Byte) : (s.setReg x v).pc = s.pc := rfl
@[simp] theorem State.setReg_stack (x : RegIdx) (v : Byte) : (s.setReg x v).stack = s.stack := rfl
@[simp] theorem State.setReg_sp (x : RegIdx) (v : Byte) : (s.setReg x v).sp = s.sp := rfl
@[simp] theorem State.setReg_DT (x : RegIdx) (v : Byte) : (s.setReg x v).DT = s.DT := rfl
@[simp] theorem State.setReg_ST (x : RegIdx) (v : Byte) : (s.setReg x v).ST = s.ST := rfl
@[simp] theorem State.setReg_mem (x : RegIdx) (v : Byte) : (s.setReg x v).mem = s.mem := rfl
@[simp] theorem State.setReg_fb (x : RegIdx) (v : Byte) : (s.setReg x v).fb = s.fb := rfl
@[simp] theorem State.setReg_keys (x : RegIdx) (v : Byte) : (s.setReg x v).keys = s.keys := rfl
@[simp] theorem State.setReg_draw (x : RegIdx) (v : Byte) : (s.setReg x v).draw = s.draw := rfl
@[simp] theorem State.setReg_run (x : RegIdx) (v : Byte) : (s.setReg x v).run = s.run := rfl
@[simp] theorem State.setReg_fault (x : RegIdx) (v : Byte) : (s.setReg x v).fault = s.fault := rfl
@[simp] theorem State.setReg_config (x : RegIdx) (v : Byte) : (s.setReg x v).config = s.config := rfl
@[simp] theorem State.setReg_schedule (x : RegIdx) (v : Byte) : (s.setReg x v).schedule = s.schedule := rfl
@[simp] theorem State.setReg_draws (x : RegIdx) (v : Byte) : (s.setReg x v).draws = s.draws := rfl
@[simp] theorem State.setReg_outputs (x : RegIdx) (v : Byte) : (s.setReg x v).outputs = s.outputs := rfl

@[simp] theorem State.byteAt_setReg (x : RegIdx) (v : Byte) (m : Nat) : (s.setReg x v).byteAt m = s.byteAt m := rfl

@[simp] theorem State.setI_V (v : Word) : (s.setI v).V = s.V := rfl
@[simp] theorem State.setI_I (v : Word) : (s.setI v).I = v := rfl
@[simp] theorem State.setI_pc (v : Word) : (s.setI v).pc = s.pc := rfl
@[simp] theorem State.setI_stack (v : Word) : (s.setI v).stack = s.stack := rfl
@[simp] theorem State.setI_sp (v : Word) : (s.setI v).sp = s.sp := rfl
@[simp] theorem State.setI_DT (v : Word) : (s.setI v).DT = s.DT := rfl
@[simp] theorem State.setI_ST (v : Word) : (s.setI v).ST = s.ST := rfl
@[simp] theorem State.setI_mem (v : Word) : (s.setI v).mem = s.mem := rfl
@[simp] theorem State.setI_fb (v : Word) : (s.setI v).fb = s.fb := rfl
@[simp] theorem State.setI_keys (v : Word) : (s.setI v).keys = s.keys := rfl
@[simp] theorem State.setI_draw (v : Word) : (s.setI v).draw = s.draw := rfl
@[simp] theorem State.setI_run (v : Word) : (s.setI v).run = s.run := rfl
@[simp] theorem State.setI_fault (v : Word) : (s.setI v).fault = s.fault := rfl
@[simp] theorem State.setI_config (v : Word) : (s.setI v).config = s.config := rfl
@[simp] theorem State.setI_schedule (v : Word) : (s.setI v).schedule = s.schedule := rfl
@[simp] theorem State.setI_draws (v : Word) : (s.setI v).draws = s.draws := rfl
@[simp] theorem State.setI_outputs (v : Word) : (s.setI v).outputs = s.outputs := rfl

@[simp] theorem State.reg_setI (v : Word) (z : RegIdx) : (s.setI v).reg z = s.reg z := rfl
@[simp] theorem State.byteAt_setI (v : Word) (m : Nat) : (s.setI v).byteAt m = s.byteAt m := rfl

@[simp] theorem State.setDT_V (v : Byte) : (s.setDT v).V = s.V := rfl
@[simp] theorem State.setDT_I (v : Byte) : (s.setDT v).I = s.I := rfl
@[simp] theorem State.setDT_pc (v : Byte) : (s.setDT v).pc = s.pc := rfl
@[simp] theorem State.setDT_stack (v : Byte) : (s.setDT v).stack = s.stack := rfl
@[simp] theorem State.setDT_sp (v : Byte) : (s.setDT v).sp = s.sp := rfl
@[simp] theorem State.setDT_DT (v : Byte) : (s.setDT v).DT = v := rfl
@[simp] theorem State.setDT_ST (v : Byte) : (s.setDT v).ST = s.ST := rfl
@[simp] theorem State.setDT_mem (v : Byte) : (s.setDT v).mem = s.mem := rfl
@[simp] theorem State.setDT_fb (v : Byte) : (s.setDT v).fb = s.fb := rfl
@[simp] theorem State.setDT_keys (v : Byte) : (s.setDT v).keys = s.keys := rfl
@[simp] theorem State.setDT_draw (v : Byte) : (s.setDT v).draw = s.draw := rfl
@[simp] theorem State.setDT_run (v : Byte) : (s.setDT v).run = s.run := rfl
@[simp] theorem State.setDT_fault (v : Byte) : (s.setDT v).fault = s.fault := rfl
@[simp] theorem State.setDT_config (v : Byte) : (s.setDT v).config = s.config := rfl
@[simp] theorem State.setDT_schedule (v : Byte) : (s.setDT v).schedule = s.schedule := rfl
@[simp] theorem State.setDT_draws (v : Byte) : (s.setDT v).draws = s.draws := rfl
@[simp] theorem State.setDT_outputs (v : Byte) : (s.setDT v).outputs = s.outputs := rfl

@[simp] theorem State.reg_setDT (v : Byte) (z : RegIdx) : (s.setDT v).reg z = s.reg z := rfl
@[simp] theorem State.byteAt_setDT (v : Byte) (m : Nat) : (s.setDT v).byteAt m = s.byteAt m := rfl

@[simp] theorem State.setST_V (v : Byte) : (s.setST v).V = s.V := rfl
@[simp] theorem State.setST_I (v : Byte) : (s.setST v).I = s.I := rfl
@[simp] theorem State.setST_pc (v : Byte) : (s.setST v).pc = s.pc := rfl
@[simp] theorem State.setST_stack (v : Byte) : (s.setST v).stack = s.stack := rfl
@[simp] theorem State.setST_sp (v : Byte) : (s.setST v).sp = s.sp := rfl
@[simp] theorem State.setST_DT (v : Byte) : (s.setST v).DT = s.DT := rfl
@[simp] theorem State.setST_ST (v : Byte) : (s.setST v).ST = v := rfl
@[simp] theorem State.setST_mem (v : Byte) : (s.setST v).mem = s.mem := rfl
@[simp] theorem State.setST_fb (v : Byte) : (s.setST v).fb = s.fb := rfl
@[simp] theorem State.setST_keys (v : Byte) : (s.setST v).keys = s.keys := rfl
@[simp] theorem State.setST_draw (v : Byte) : (s.setST v).draw = s.draw := rfl
@[simp] theorem State.setST_run (v : Byte) : (s.setST v).run = s.run := rfl
@[simp] theorem State.setST_fault (v : Byte) : (s.setST v).fault = s.fault := rfl
@[simp] theorem State.setST_config (v : Byte) : (s.setST v).config = s.config := rfl
@[simp] theorem State.setST_schedule (v : Byte) : (s.setST v).schedule = s.schedule := rfl
@[simp] theorem State.setST_draws (v : Byte) : (s.setST v).draws = s.draws := rfl
@[simp] theorem State.setST_outputs (v : Byte) : (s.setST v).outputs = s.outputs := rfl

@[simp] theorem State.reg_setST (v : Byte) (z : RegIdx) : (s.setST v).reg z = s.reg z := rfl
@[simp] theorem State.byteAt_setST (v : Byte) (m : Nat) : (s.setST v).byteAt m = s.byteAt m := rfl

@[simp] theorem State.setDraw_V (b : Bool) : (s.setDraw b).V = s.V := rfl
@[simp] theorem State.setDraw_I (b : Bool) : (s.setDraw b).I = s.I := rfl
@[simp] theorem State.setDraw_pc (b : Bool) : (s.setDraw b).pc = s.pc := rfl
@[simp] theorem State.setDraw_stack (b : Bool) : (s.setDraw b).stack = s.stack := rfl
@[simp] theorem State.setDraw_sp (b : Bool) : (s.setDraw b).sp = s.sp := rfl
@[simp] theorem State.setDraw_DT (b : Bool) : (s.setDraw b).DT = s.DT := rfl
@[simp] theorem State.setDraw_ST (b : Bool) : (s.setDraw b).ST = s.ST := rfl
@[simp] theorem State.setDraw_mem (b : Bool) : (s.setDraw b).mem = s.mem := rfl
@[simp] theorem State.setDraw_fb (b : Bool) : (s.setDraw b).fb = s.fb := rfl
@[simp] theorem State.setDraw_keys (b : Bool) : (s.setDraw b).keys = s.keys := rfl
@[simp] theorem State.setDraw_draw (b : Bool) : (s.setDraw b).draw = b := rfl
@[simp] theorem State.setDraw_run (b : Bool) : (s.setDraw b).run = s.run := rfl
@[simp] theorem State.setDraw_fault (b : Bool) : (s.setDraw b).fault = s.fault := rfl
@[simp] theorem State.setDraw_config (b : Bool) : (s.setDraw b).config = s.config := rfl
@[simp] theorem State.setDraw_schedule (b : Bool) : (s.setDraw b).schedule = s.schedule := rfl
@[simp] theorem State.setDraw_draws (b : Bool) : (s.setDraw b).draws = s.draws := rfl
@[simp] theorem State.setDraw_outputs (b : Bool) : (s.setDraw b).outputs = s.outputs := rfl

@[simp] theorem State.reg_setDraw (b : Bool) (z : RegIdx) : (s.setDraw b).reg z = s.reg z := rfl
@[simp] theorem State.byteAt_setDraw (b : Bool) (m : Nat) : (s.setDraw b).byteAt m = s.byteAt m := rfl

@[simp] theorem State.setFb_V (f : Framebuffer) : (s.setFb f).V = s.V := rfl
@[simp] theorem State.setFb_I (f : Framebuffer) : (s.setFb f).I = s.I := rfl
@[simp] theorem State.setFb_pc (f : Framebuffer) : (s.setFb f).pc = s.pc := rfl
@[simp] theorem State.setFb_stack (f : Framebuffer) : (s.setFb f).stack = s.stack := rfl
@[simp] theorem State.setFb_sp (f : Framebuffer) : (s.setFb f).sp = s.sp := rfl
@[simp] theorem State.setFb_DT (f : Framebuffer) : (s.setFb f).DT = s.DT := rfl
@[simp] theorem State.setFb_ST (f : Framebuffer) : (s.setFb f).ST = s.ST := rfl
@[simp] theorem State.setFb_mem (f : Framebuffer) : (s.setFb f).mem = s.mem := rfl
@[simp] theorem State.setFb_fb (f : Framebuffer) : (s.setFb f).fb = f := rfl
@[simp] theorem State.setFb_keys (f : Framebuffer) : (s.setFb f).keys = s.keys := rfl
@[simp] theorem State.setFb_draw (f : Framebuffer) : (s.setFb f).draw = s.draw := rfl
@[simp] theorem State.setFb_run (f : Framebuffer) : (s.setFb f).run = s.run := rfl
@[simp] theorem State.setFb_fault (f : Framebuffer) : (s.setFb f).fault = s.fault := rfl
@[simp] theorem State.setFb_config (f : Framebuffer) : (s.setFb f).config = s.config := rfl
@[simp] theorem State.setFb_schedule (f : Framebuffer) : (s.setFb f).schedule = s.schedule := rfl
@[simp] theorem State.setFb_draws (f : Framebuffer) : (s.setFb f).draws = s.draws := rfl
@[simp] theorem State.setFb_outputs (f : Framebuffer) : (s.setFb f).outputs = s.outputs := rfl

@[simp] theorem State.reg_setFb (f : Framebuffer) (z : RegIdx) : (s.setFb f).reg z = s.reg z := rfl
@[simp] theorem State.byteAt_setFb (f : Framebuffer) (m : Nat) : (s.setFb f).byteAt m = s.byteAt m := rfl

@[simp] theorem State.setKey_V (k : Fin 16) (b : Bool) : (s.setKey k b).V = s.V := rfl
@[simp] theorem State.setKey_I (k : Fin 16) (b : Bool) : (s.setKey k b).I = s.I := rfl
@[simp] theorem State.setKey_pc (k : Fin 16) (b : Bool) : (s.setKey k b).pc = s.pc := rfl
@[simp] theorem State.setKey_stack (k : Fin 16) (b : Bool) : (s.setKey k b).stack = s.stack := rfl
@[simp] theorem State.setKey_sp (k : Fin 16) (b : Bool) : (s.setKey k b).sp = s.sp := rfl
@[simp] theorem State.setKey_DT (k : Fin 16) (b : Bool) : (s.setKey k b).DT = s.DT := rfl
@[simp] theorem State.setKey_ST (k : Fin 16) (b : Bool) : (s.setKey k b).ST = s.ST := rfl
@[simp] theorem State.setKey_mem (k : Fin 16) (b : Bool) : (s.setKey k b).mem = s.mem := rfl
@[simp] theorem State.setKey_fb (k : Fin 16) (b : Bool) : (s.setKey k b).fb = s.fb := rfl
@[simp] theorem State.setKey_keys (k : Fin 16) (b : Bool) : (s.setKey k b).keys = s.keys.set k.val b := rfl
@[simp] theorem State.setKey_draw (k : Fin 16) (b : Bool) : (s.setKey k b).draw = s.draw := rfl
@[simp] theorem State.setKey_run (k : Fin 16) (b : Bool) : (s.setKey k b).run = s.run := rfl
@[simp] theorem State.setKey_fault (k : Fin 16) (b : Bool) : (s.setKey k b).fault = s.fault := rfl
@[simp] theorem State.setKey_config (k : Fin 16) (b : Bool) : (s.setKey k b).config = s.config := rfl
@[simp] theorem State.setKey_schedule (k : Fin 16) (b : Bool) : (s.setKey k b).schedule = s.schedule := rfl
@[simp] theorem State.setKey_draws (k : Fin 16) (b : Bool) : (s.setKey k b).draws = s.draws := rfl
@[simp] theorem State.setKey_outputs (k : Fin 16) (b : Bool) : (s.setKey k b).outputs = s.outputs := rfl

@[simp] theorem State.reg_setKey (k : Fin 16) (b : Bool) (z : RegIdx) : (s.setKey k b).reg z = s.reg z := rfl
@[simp] theorem State.byteAt_setKey (k : Fin 16) (b : Bool) (m : Nat) : (s.setKey k b).byteAt m = s.byteAt m := rfl

@[simp] theorem State.setPc_V (w : Word) : (s.setPc w).V = s.V := rfl
@[simp] theorem State.setPc_I (w : Word) : (s.setPc w).I = s.I := rfl
@[simp] theorem State.setPc_pc (w : Word) : (s.setPc w).pc = w := rfl
@[simp] theorem State.setPc_stack (w : Word) : (s.setPc w).stack = s.stack := rfl
@[simp] theorem State.setPc_sp (w : Word) : (s.setPc w).sp = s.sp := rfl
@[simp] theorem State.setPc_DT (w : Word) : (s.setPc w).DT = s.DT := rfl
@[simp] theorem State.setPc_ST (w : Word) : (s.setPc w).ST = s.ST := rfl
@[simp] theorem State.setPc_mem (w : Word) : (s.setPc w).mem = s.mem := rfl
@[simp] theorem State.setPc_fb (w : Word) : (s.setPc w).fb = s.fb := rfl
@[simp] theorem State.setPc_keys (w : Word) : (s.setPc w).keys = s.keys := rfl
@[simp] theorem State.setPc_draw (w : Word) : (s.setPc w).draw = s.draw := rfl
@[simp] theorem State.setPc_run (w : Word) : (s.setPc w).run = s.run := rfl
@[simp] theorem State.setPc_fault (w : Word) : (s.setPc w).fault = s.fault := rfl
@[simp] theorem State.setPc_config (w : Word) : (s.setPc w).config = s.config := rfl
@[simp] theorem State.setPc_schedule (w : Word) : (s.setPc w).schedule = s.schedule := rfl
@[simp] theorem State.setPc_draws (w : Word) : (s.setPc w).draws = s.draws := rfl
@[simp] theorem State.setPc_outputs (w : Word) : (s.setPc w).outputs = s.outputs := rfl

@[simp] theorem State.reg_setPc (w : Word) (z : RegIdx) : (s.setPc w).reg z = s.reg z := rfl
@[simp] theorem State.byteAt_setPc (w : Word) (m : Nat) : (s.setPc w).byteAt m = s.byteAt m := rfl

@[simp] theorem State.advance_V : s.advance.V = s.V := rfl
@[simp] theorem State.advance_I : s.advance.I = s.I := rfl
@[simp] theorem State.advance_pc : s.advance.pc = s.pc + 2 := rfl
@[simp] theorem State.advance_stack : s.advance.stack = s.stack := rfl
@[simp] theorem State.advance_sp : s.advance.sp = s.sp := rfl
@[simp] theorem State.advance_DT : s.advance.DT = s.DT := rfl
@[simp] theorem State.advance_ST : s.advance.ST = s.ST := rfl
@[simp] theorem State.advance_mem : s.advance.mem = s.mem := rfl
@[simp] theorem State.advance_fb : s.advance.fb = s.fb := rfl
@[simp] theorem State.advance_keys : s.advance.keys = s.keys := rfl
@[simp] theorem State.advance_draw : s.advance.draw = s.draw := rfl
@[simp] theorem State.advance_run : s.advance.run = s.run := rfl
@[simp] theorem State.advance_fault : s.advance.fault = s.fault := rfl
@[simp] theorem State.advance_config : s.advance.config = s.config := rfl
@[simp] theorem State.advance_schedule : s.advance.schedule = s.schedule := rfl
@[simp] theorem State.advance_draws : s.advance.draws = s.draws := rfl
@[simp] theorem State.advance_outputs : s.advance.outputs = s.outputs := rfl

@[simp] theorem State.reg_advance (z : RegIdx) : s.advance.reg z = s.reg z := rfl
@[simp] theorem State.byteAt_advance (m : Nat) : s.advance.byteAt m = s.byteAt m := rfl

@[simp] theorem State.emit_V (o : Output) : (s.emit o).V = s.V := rfl
@[simp] theorem State.emit_I (o : Output) : (s.emit o).I = s.I := rfl
@[simp] theorem State.emit_pc (o : Output) : (s.emit o).pc = s.pc := rfl
@[simp] theorem State.emit_stack (o : Output) : (s.emit o).stack = s.stack := rfl
@[simp] theorem State.emit_sp (o : Output) : (s.emit o).sp = s.sp := rfl
@[simp] theorem State.emit_DT (o : Output) : (s.emit o).DT = s.DT := rfl
@[simp] theorem State.emit_ST (o : Output) : (s.emit o).ST = s.ST := rfl
@[simp] theorem State.emit_mem (o : Output) : (s.emit o).mem = s.mem := rfl
@[simp] theorem State.emit_fb (o : Output) : (s.emit o).fb = s.fb := rfl
@[simp] theorem State.emit_keys (o : Output) : (s.emit o).keys = s.keys := rfl
@[simp] theorem State.emit_draw (o : Output) : (s.emit o).draw = s.draw := rfl
@[simp] theorem State.emit_run (o : Output) : (s.emit o).run = s.run := rfl
@[simp] theorem State.emit_fault (o : Output) : (s.emit o).fault = s.fault := rfl
@[simp] theorem State.emit_config (o : Output) : (s.emit o).config = s.config := rfl
@[simp] theorem State.emit_schedule (o : Output) : (s.emit o).schedule = s.schedule := rfl
@[simp] theorem State.emit_draws (o : Output) : (s.emit o).draws = s.draws := rfl
@[simp] theorem State.emit_outputs (o : Output) : (s.emit o).outputs = s.outputs ++ [o] := rfl

@[simp] theorem State.reg_emit (o : Output) (z : RegIdx) : (s.emit o).reg z = s.reg z := rfl
@[simp] theorem State.byteAt_emit (o : Output) (m : Nat) : (s.emit o).byteAt m = s.byteAt m := rfl

@[simp] theorem State.takeFault_V (c : Cause) (p o : Option Word) : (s.takeFault c p o).V = s.V := rfl
@[simp] theorem State.takeFault_I (c : Cause) (p o : Option Word) : (s.takeFault c p o).I = s.I := rfl
@[simp] theorem State.takeFault_pc (c : Cause) (p o : Option Word) : (s.takeFault c p o).pc = s.pc := rfl
@[simp] theorem State.takeFault_stack (c : Cause) (p o : Option Word) : (s.takeFault c p o).stack = s.stack := rfl
@[simp] theorem State.takeFault_sp (c : Cause) (p o : Option Word) : (s.takeFault c p o).sp = s.sp := rfl
@[simp] theorem State.takeFault_DT (c : Cause) (p o : Option Word) : (s.takeFault c p o).DT = s.DT := rfl
@[simp] theorem State.takeFault_ST (c : Cause) (p o : Option Word) : (s.takeFault c p o).ST = s.ST := rfl
@[simp] theorem State.takeFault_mem (c : Cause) (p o : Option Word) : (s.takeFault c p o).mem = s.mem := rfl
@[simp] theorem State.takeFault_fb (c : Cause) (p o : Option Word) : (s.takeFault c p o).fb = s.fb := rfl
@[simp] theorem State.takeFault_keys (c : Cause) (p o : Option Word) : (s.takeFault c p o).keys = s.keys := rfl
@[simp] theorem State.takeFault_draw (c : Cause) (p o : Option Word) : (s.takeFault c p o).draw = s.draw := rfl
@[simp] theorem State.takeFault_run (c : Cause) (p o : Option Word) : (s.takeFault c p o).run = .halted := rfl
@[simp] theorem State.takeFault_fault (c : Cause) (p o : Option Word) : (s.takeFault c p o).fault = some (faultRecord c p o) := rfl
@[simp] theorem State.takeFault_config (c : Cause) (p o : Option Word) : (s.takeFault c p o).config = s.config := rfl
@[simp] theorem State.takeFault_schedule (c : Cause) (p o : Option Word) : (s.takeFault c p o).schedule = s.schedule := rfl
@[simp] theorem State.takeFault_draws (c : Cause) (p o : Option Word) : (s.takeFault c p o).draws = s.draws := rfl
@[simp] theorem State.takeFault_outputs (c : Cause) (p o : Option Word) : (s.takeFault c p o).outputs = s.outputs ++ [.fault (faultRecord c p o)] := rfl

@[simp] theorem State.reg_takeFault (c : Cause) (p o : Option Word) (z : RegIdx) : (s.takeFault c p o).reg z = s.reg z := rfl
@[simp] theorem State.byteAt_takeFault (c : Cause) (p o : Option Word) (m : Nat) : (s.takeFault c p o).byteAt m = s.byteAt m := rfl

/-- A register write is seen by a read of that register and by no other (R20). -/
theorem State.reg_setReg (x z : RegIdx) (v : Byte) : (s.setReg x v).reg z = if z = x then v else s.reg z := by
  simp only [State.reg, State.setReg, Vector.getElem_set]
  by_cases h : z = x
  · simp [h]
  · have : ¬ x.toNat = z.toNat := fun e => h (BitVec.eq_of_toNat_eq e.symm)
    simp [h, this]

@[simp] theorem State.reg_setReg_same (x : RegIdx) (v : Byte) : (s.setReg x v).reg x = v := by
  simp [State.reg_setReg]

theorem State.reg_setReg_ne {x z : RegIdx} (h : z ≠ x) (v : Byte) : (s.setReg x v).reg z = s.reg z := by
  simp [State.reg_setReg, h]

/-- A key write is seen at that key and at no other (R28). -/
theorem State.keys_setKey (k j : Fin 16) (b : Bool) : (s.setKey k b).keys[j] = if j = k then b else s.keys[j] := by
  show (s.keys.set k.val b)[j.val] = _
  rw [Vector.getElem_set]
  by_cases h : j = k
  · simp [h]
  · have : ¬ k.val = j.val := fun e => h (Fin.ext e.symm)
    simp [h, this]

/-- A skip writes pc only (R110). -/
theorem State.skipIf_eq (c : Bool) : s.skipIf c = s.setPc (if c then s.pc + 2 else s.pc) := by
  cases c <;> rfl

/-- A draw changes the draw counter only (R143). -/
theorem State.drawByte_state : s.drawByte.2 = { s with draws := s.draws + 1 } := rfl

end Sys2Proof.Machine
end

