-- ==== Sys2Proof/Laws/Ops.lean ====
section
/-! SUPPORT. One lemma per shared operation that says everything it can do: memory accesses, the stores and loads of
several bytes, push and pop, the fetch, and how an instruction's cycle ends. -/

namespace Sys2Proof.Machine

/-! Single accesses (R50, R51). -/

theorem State.memRead_ok (s : State) {a : Nat} (h : a ≤ 4095) : s.memRead a = .ok (s.byteAt a) := if_pos h

theorem State.memRead_error (s : State) {a : Nat} (h : ¬ a ≤ 4095) :
    s.memRead a = .error (.addressOutOfRange (.mem a)) := if_neg h

theorem State.memWrite_ok (s : State) {a : Nat} (h : a ≤ 4095) (v : Byte) :
    s.memWrite a v = .ok { s with mem := Memory.write s.config s.mem a v } := if_pos h

theorem State.memWrite_error (s : State) {a : Nat} (h : ¬ a ≤ 4095) (v : Byte) :
    s.memWrite a v = .error (.addressOutOfRange (.mem a)) := if_neg h

/-! Stores of several bytes (R155, R156). -/

/-- Stores that end inside memory all happen, and nothing but memory changes. -/
theorem State.storeBytes_ok (s : State) (bs : List Byte) {a : Nat} (h : a + bs.length ≤ 4096) :
    s.storeBytes a bs = .ok { s with mem := Memory.writeList s.config s.mem a bs } := by
  induction bs generalizing s a with
  | nil => rfl
  | cons b bs ih =>
    simp only [List.length_cons] at h
    rw [State.storeBytes, State.memWrite_ok s (by omega)]
    exact ih _ (by omega)

/-- Stores that would pass the end of memory raise the fault of the first address that does. -/
theorem State.storeBytes_error (s : State) (bs : List Byte) {a : Nat} (h : 4096 < a + bs.length) (hne : bs ≠ []) :
    s.storeBytes a bs = .error (.addressOutOfRange (.mem (max a 4096))) := by
  induction bs generalizing s a with
  | nil => exact absurd rfl hne
  | cons b bs ih =>
    simp only [List.length_cons] at h
    rw [State.storeBytes]
    by_cases ha : a ≤ 4095
    · rw [State.memWrite_ok s ha]
      have : bs ≠ [] := by rintro rfl; simp at h; omega
      show State.storeBytes _ (a + 1) bs = _
      rw [ih _ (by omega) this]
      congr 3
      omega
    · rw [State.memWrite_error s ha]
      show Except.error _ = _
      congr 3
      omega

/-- What a byte of memory reads as after the stores. -/
theorem State.byteAt_writeList (s : State) (bs : List Byte) (a b : Nat) :
    State.byteAt { s with mem := Memory.writeList s.config s.mem a bs } b =
      if a ≤ b then (bs[b - a]?).getD (s.byteAt b) else s.byteAt b :=
  Memory.read_writeList s.config bs s.mem a b

/-! Loads of several registers (R157). -/

/-- Loads that end inside memory all happen, and nothing but V changes. -/
theorem State.loadRegs_ok (s : State) (ks : List RegIdx) {a : Nat} (h : a + ks.length ≤ 4096) :
    ∃ t, s.loadRegs a ks = .ok t ∧ t = { s with V := t.V } ∧ (∀ z, z ∉ ks → t.reg z = s.reg z) ∧
      (ks.Nodup → ∀ k (hk : k < ks.length), t.reg ks[k] = s.byteAt (a + k)) := by
  induction ks generalizing s a with
  | nil => exact ⟨s, rfl, rfl, fun _ _ => rfl, fun _ k hk => absurd hk (Nat.not_lt_zero k)⟩
  | cons x ks ih =>
    simp only [List.length_cons] at h
    obtain ⟨t, ht, hk, hz, hr⟩ := ih (s.setReg x (s.byteAt a)) (a := a + 1) (by omega)
    refine ⟨t, ?_, ?_, fun z hz' => ?_, fun hnd k hk' => ?_⟩
    · rw [State.loadRegs, State.memRead_ok s (by omega)]
      exact ht
    · rw [hk]; rfl
    · rw [List.mem_cons, not_or] at hz'
      rw [hz z hz'.2, State.reg_setReg_ne _ hz'.1]
    · rw [List.nodup_cons] at hnd
      cases k with
      | zero => simp [hz x hnd.1]
      | succ k =>
        have h1 := hr hnd.2 k (by simpa using hk')
        simp only [List.getElem_cons_succ, h1, State.byteAt_setReg]
        congr 1
        omega

/-- Loads that would pass the end of memory raise the fault of the first address that does. -/
theorem State.loadRegs_error (s : State) (ks : List RegIdx) {a : Nat} (h : 4096 < a + ks.length) (hne : ks ≠ []) :
    s.loadRegs a ks = .error (.addressOutOfRange (.mem (max a 4096))) := by
  induction ks generalizing s a with
  | nil => exact absurd rfl hne
  | cons x ks ih =>
    simp only [List.length_cons] at h
    rw [State.loadRegs]
    by_cases ha : a ≤ 4095
    · rw [State.memRead_ok s ha]
      have : ks ≠ [] := by rintro rfl; simp at h; omega
      show State.loadRegs _ (a + 1) ks = _
      rw [ih _ (by omega) this]
      congr 3
      omega
    · rw [State.memRead_error s ha]
      show Except.error _ = _
      congr 3
      omega

/-! The register list V0 to Vx. -/

@[simp] theorem length_regsUpTo (x : RegIdx) : (regsUpTo x).length = x.toNat + 1 := by simp [regsUpTo]

theorem regsUpTo_ne_nil (x : RegIdx) : regsUpTo x ≠ [] := by
  intro h
  have := congrArg List.length h
  simp at this

theorem getElem_regsUpTo (x : RegIdx) (k : Nat) (h : k < (regsUpTo x).length) :
    (regsUpTo x)[k] = BitVec.ofNat 4 k := by simp [regsUpTo]

theorem mem_regsUpTo {x z : RegIdx} : z ∈ regsUpTo x ↔ z.toNat ≤ x.toNat := by
  simp only [regsUpTo, List.mem_map, List.mem_range]
  constructor
  · rintro ⟨k, hk, rfl⟩
    have := x.isLt
    simp only [BitVec.toNat_ofNat]
    omega
  · intro h
    exact ⟨z.toNat, by omega, by simp⟩

theorem nodup_regsUpTo (x : RegIdx) : (regsUpTo x).Nodup := by
  refine (List.nodup_map_iff_inj_on List.nodup_range).mpr fun a ha b hb hab => ?_
  have h1 := x.isLt
  have h2 := List.mem_range.mp ha
  have h3 := List.mem_range.mp hb
  have h4 := congrArg BitVec.toNat hab
  simp only [BitVec.toNat_ofNat] at h4
  omega

/-! The stack (R24). -/

theorem State.push_ok (s : State) (w : Word) (h : s.sp.val < 16) :
    s.push w = .ok { s with stack := s.stack.set s.sp.val w, sp := ⟨s.sp.val + 1, Nat.succ_lt_succ h⟩ } := dif_pos h

theorem State.push_error (s : State) (w : Word) (h : ¬ s.sp.val < 16) : s.push w = .error .stackOverflow := dif_neg h

theorem State.pop_ok (s : State) (h : 0 < s.sp.val) :
    ∃ h', s.pop = .ok (s.stack[s.sp.val - 1]'h',
      { s with sp := ⟨s.sp.val - 1, Nat.lt_of_le_of_lt (Nat.sub_le _ _) s.sp.isLt⟩ }) :=
  ⟨by omega, dif_pos h⟩

theorem State.pop_error (s : State) (h : ¬ 0 < s.sp.val) : s.pop = .error .stackUnderflow := dif_neg h

/-! The fetch (R53, R80). -/

theorem State.fetch_ok (s : State) (h : s.pc.toNat ≤ 4094) :
    s.fetch = .ok (wordOfBytes (s.byteAt s.pc.toNat) (s.byteAt (s.pc.toNat + 1))) := by
  rw [State.fetch, State.memRead_ok s (by omega), State.memRead_ok s (by omega)]

theorem State.fetch_error (s : State) (h : 4094 < s.pc.toNat) :
    s.fetch = .error (.addressOutOfRange (.mem (max s.pc.toNat 4096))) := by
  rw [State.fetch]
  by_cases hp : s.pc.toNat ≤ 4095
  · rw [State.memRead_ok s hp, State.memRead_error s (by omega)]
    show Except.error _ = _
    congr 3
    omega
  · rw [State.memRead_error s hp]
    show Except.error _ = _
    congr 3
    omega

/-- A fetch that answers a word was made at 4094 or below. -/
theorem State.pc_le_of_fetch {s : State} {w : Word} (h : s.fetch = .ok w) : s.pc.toNat ≤ 4094 := by
  by_contra hc
  rw [State.fetch_error s (by omega)] at h
  cases h

/-! How a cycle ends (R203). -/

theorem State.finish_ok (s t : State) (op : Word) : s.finish op (.ok t) = .next t := rfl

theorem State.finish_error (s : State) (op : Word) (c : Cause) :
    s.finish op (.error c) = .next (s.takeFault c (some s.pc) (some op)) := rfl

/-- A cycle that may raise ends in the state its execute phase reached, or in the fault taken from the state before it. -/
theorem State.finish_cases {s t : State} {op : Word} {r : Except Cause State} (h : s.finish op r = .next t) :
    r = .ok t ∨ ∃ c, r = .error c ∧ t = s.takeFault c (some s.pc) (some op) := by
  cases r with
  | ok u =>
    injection h with h
    exact .inl (congrArg _ h)
  | error c =>
    injection h with h
    exact .inr ⟨c, rfl, h.symm⟩

/-! The key a value selects (R171) and the lowest pressed key (R174). -/

theorem keyOfValue_some {v : Byte} (h : v.toNat < 16) : keyOfValue v = some ⟨v.toNat, h⟩ := dif_pos h

theorem keyOfValue_none {v : Byte} (h : ¬ v.toNat < 16) : keyOfValue v = none := dif_neg h

theorem State.firstKey_none {s : State} (h : ∀ k : Fin 16, s.keys[k] = false) : s.firstKey = none := by
  simp only [State.firstKey, List.find?_eq_none]
  intro k _
  simp [h k]

theorem State.firstKey_some {s : State} {k : Fin 16} (hk : s.keys[k] = true)
    (hlow : ∀ j : Fin 16, j < k → s.keys[j] = false) : s.firstKey = some k := by
  unfold State.firstKey
  rw [List.find?_eq_some_iff_getElem]
  refine ⟨hk, k.val, by simp, by simp, fun j hj => ?_⟩
  have hj' : j < 16 := by omega
  have := hlow ⟨j, hj'⟩ hj
  simp_all

end Sys2Proof.Machine
end

