-- ==== Sys2Proof/Laws/Display.lean ====
section
/-! SUPPORT. Drawing in closed form: what one flipped pixel changes, and what a row of columns and a list of rows do when no
access fails (rules R102, R103). -/

namespace Sys2Proof.Machine

/-- A clear display has no pixel set (R101). -/
theorem pixelAt_clearFb (x y : Nat) : pixelAt clearFb x y = false := by
  unfold pixelAt clearFb
  split
  · split <;> simp
  · rfl

/-- Flipping a pixel of the grid changes that pixel and no other (R103). -/
theorem pixelAt_flipPixel (f : Framebuffer) (x : Fin 64) (y : Fin 32) (a : Fin 64) (b : Fin 32) :
    pixelAt (flipPixel f x y) a.val b.val =
      xor (pixelAt f a.val b.val) (decide (x.val = a.val) && decide (y.val = b.val)) := by
  simp only [pixelAt, flipPixel, a.isLt, b.isLt, dif_pos, Vector.getElem_set]
  by_cases hy : y.val = b.val
  · simp only [hy, if_true, decide_true, Bool.and_true, Vector.getElem_set]
    by_cases hx : x.val = a.val <;> simp [hx]
  · simp [hy]

/-- When the policy wraps, or the pixel is on the grid, the XOR of a pixel succeeds (R103). -/
theorem xorPixel_ok {e : DisplayEdge} {f : Framebuffer} {px py : Nat} (h : e = .wrap ∨ (px ≤ 63 ∧ py ≤ 31)) :
    xorPixel e f px py =
      .ok (flipPixel f (Fin.ofNat 64 px) (Fin.ofNat 32 py), pixelAt f (px % 64) (py % 32)) := by
  refine if_neg ?_
  rintro ⟨rfl, h'⟩
  rcases h with h | h
  · cases h
  · omega

/-- Under the reject policy a pixel off the grid is out of range (R103). -/
theorem xorPixel_error {f : Framebuffer} {px py : Nat} (h : px > 63 ∨ py > 31) :
    xorPixel .reject f px py = .error (.addressOutOfRange (.display px py)) := if_pos ⟨rfl, h⟩

/-- Whether a set bit of a row's byte among the columns `cs` lands on (px, y). -/
def rowCovers (b : Byte) (vx py : Nat) (cs : List Nat) (px y : Nat) : Bool :=
  cs.any fun c => b.getLsbD (7 - c) && (decide ((vx + c) % 64 = px) && decide (py % 32 = y))

/-- Whether a set bit of a row's byte among the columns `cs` meets a set pixel. -/
def rowHits (f : Framebuffer) (b : Byte) (vx py : Nat) (cs : List Nat) : Bool :=
  cs.any fun c => b.getLsbD (7 - c) && pixelAt f ((vx + c) % 64) (py % 32)

/-- A row of columns, when no pixel fails: the covered pixels flip, and the collision is whether a set pixel was met. -/
theorem drawColumns_ok {e : DisplayEdge} {b : Byte} {vx py : Nat} (cs : List Nat) (acc : Framebuffer × Bool)
    (hlt : ∀ c ∈ cs, c < 8) (hnd : cs.Nodup)
    (hfit : e = .wrap ∨ ∀ c ∈ cs, b.getLsbD (7 - c) = true → vx + c ≤ 63 ∧ py ≤ 31) :
    ∃ f, drawColumns e b vx py cs acc = .ok (f, acc.2 || rowHits acc.1 b vx py cs) ∧
      ∀ (x : Fin 64) (y : Fin 32),
        pixelAt f x.val y.val = xor (pixelAt acc.1 x.val y.val) (rowCovers b vx py cs x.val y.val) := by
  induction cs generalizing acc with
  | nil => exact ⟨acc.1, by simp [drawColumns, rowHits], fun x y => by simp [rowCovers]⟩
  | cons c cs ih =>
    rw [List.nodup_cons] at hnd
    have hlt' : ∀ d ∈ cs, d < 8 := fun d hd => hlt d (List.mem_cons_of_mem _ hd)
    have hfit' : e = .wrap ∨ ∀ d ∈ cs, b.getLsbD (7 - d) = true → vx + d ≤ 63 ∧ py ≤ 31 :=
      hfit.imp id fun h d hd => h d (List.mem_cons_of_mem _ hd)
    by_cases hb : b.getLsbD (7 - c) = true
    · have hx := xorPixel_ok (f := acc.1) (hfit.imp id fun h => h c List.mem_cons_self hb)
      obtain ⟨f, hf, hp⟩ :=
        ih (flipPixel acc.1 (Fin.ofNat 64 (vx + c)) (Fin.ofNat 32 py),
          acc.2 || pixelAt acc.1 ((vx + c) % 64) (py % 32)) hlt' hnd.2 hfit'
      have hc8 := hlt c List.mem_cons_self
      have hne : ∀ d ∈ cs, ¬ (vx + c) % 64 = (vx + d) % 64 := by
        intro d hd h
        have := hlt' d hd
        have hcd : c = d := by omega
        exact hnd.1 (hcd ▸ hd)
      refine ⟨f, ?_, fun x y => ?_⟩
      · rw [drawColumns, if_pos hb, hx]
        show drawColumns _ _ _ _ _ _ = _
        rw [hf]
        congr 2
        have hrow : rowHits (flipPixel acc.1 (Fin.ofNat 64 (vx + c)) (Fin.ofNat 32 py)) b vx py cs =
            rowHits acc.1 b vx py cs := by
          unfold rowHits
          rw [Bool.eq_iff_iff, List.any_eq_true, List.any_eq_true]
          refine exists_congr fun d => and_congr_right fun hd => ?_
          have h1 := pixelAt_flipPixel acc.1 (Fin.ofNat 64 (vx + c)) (Fin.ofNat 32 py)
            ⟨(vx + d) % 64, Nat.mod_lt _ (by omega)⟩ ⟨py % 32, Nat.mod_lt _ (by omega)⟩
          simp only [Fin.ofNat] at h1
          simp only [hne d hd, decide_false, Bool.false_and, Bool.xor_false] at h1
          rw [← Bool.eq_iff_iff]
          exact congrArg _ h1
        show (acc.2 || _ || rowHits _ b vx py cs) = _
        rw [hrow]
        simp [rowHits, hb, Bool.or_assoc]
      · rw [hp x y]
        have h1 := pixelAt_flipPixel acc.1 (Fin.ofNat 64 (vx + c)) (Fin.ofNat 32 py) x y
        show xor (pixelAt (flipPixel _ _ _) _ _) _ = _
        rw [h1]
        simp only [Fin.ofNat, rowCovers, List.any_cons, hb, Bool.true_and]
        by_cases hxy : (vx + c) % 64 = x.val
        · have : (cs.any fun d => b.getLsbD (7 - d) && (decide ((vx + d) % 64 = x.val) && decide (py % 32 = y.val))) =
              false := by
            rw [List.any_eq_false]
            intro d hd
            have := hne d hd
            rw [hxy] at this
            simp [Ne.symm this]
          rw [this]
          simp
        · simp [hxy]
    · obtain ⟨f, hf, hp⟩ := ih acc hlt' hnd.2 hfit'
      refine ⟨f, ?_, fun x y => ?_⟩
      · rw [drawColumns, if_neg hb, hf]
        simp [rowHits, hb]
      · rw [hp x y]
        simp [rowCovers, hb]

/-- Whether a set bit of the rows `rs` of the sprite at I lands on (px, y). -/
def State.rowsCover (s : State) (vx vy : Nat) (rs : List Nat) (px y : Nat) : Bool :=
  rs.any fun r => rowCovers (s.byteAt (s.effAddr r)) vx (vy + r) (List.range 8) px y

/-- Whether a set bit of the rows `rs` of the sprite at I meets a set pixel of `f`. -/
def State.rowsHit (s : State) (f : Framebuffer) (vx vy : Nat) (rs : List Nat) : Bool :=
  rs.any fun r => rowHits f (s.byteAt (s.effAddr r)) vx (vy + r) (List.range 8)

/-- A list of rows, when no access fails: the covered pixels flip, and the collision is whether a set pixel was met. -/
theorem State.drawRows_ok (s : State) {vx vy : Nat} (rs : List Nat) (acc : Framebuffer × Bool)
    (hlt : ∀ r ∈ rs, r < 16) (hnd : rs.Nodup) (hmem : ∀ r ∈ rs, s.effAddr r ≤ 4095)
    (hfit : s.config.displayEdge = .wrap ∨ ∀ r ∈ rs, ∀ c, c < 8 →
      (s.byteAt (s.effAddr r)).getLsbD (7 - c) = true → vx + c ≤ 63 ∧ vy + r ≤ 31) :
    ∃ f, s.drawRows vx vy rs acc = .ok (f, acc.2 || s.rowsHit acc.1 vx vy rs) ∧
      ∀ (x : Fin 64) (y : Fin 32),
        pixelAt f x.val y.val = xor (pixelAt acc.1 x.val y.val) (s.rowsCover vx vy rs x.val y.val) := by
  induction rs generalizing acc with
  | nil => exact ⟨acc.1, by simp [State.drawRows, State.rowsHit], fun x y => by simp [State.rowsCover]⟩
  | cons r rs ih =>
    rw [List.nodup_cons] at hnd
    have hlt' : ∀ q ∈ rs, q < 16 := fun q hq => hlt q (List.mem_cons_of_mem _ hq)
    have hr16 := hlt r List.mem_cons_self
    obtain ⟨f1, hf1, hp1⟩ :=
      drawColumns_ok (e := s.config.displayEdge) (b := s.byteAt (s.effAddr r)) (vx := vx) (py := vy + r)
        (List.range 8) acc (fun c hc => List.mem_range.mp hc) List.nodup_range
        (hfit.imp id fun h c hc hb => h r List.mem_cons_self c (List.mem_range.mp hc) hb)
    obtain ⟨f, hf, hp⟩ := ih (f1, acc.2 || rowHits acc.1 (s.byteAt (s.effAddr r)) vx (vy + r) (List.range 8)) hlt' hnd.2
      (fun q hq => hmem q (List.mem_cons_of_mem _ hq))
      (hfit.imp id fun h q hq => h q (List.mem_cons_of_mem _ hq))
    have hne : ∀ q ∈ rs, ¬ (vy + r) % 32 = (vy + q) % 32 := by
      intro q hq h
      have := hlt' q hq
      have hrq : r = q := by omega
      exact hnd.1 (hrq ▸ hq)
    refine ⟨f, ?_, fun x y => ?_⟩
    · rw [State.drawRows, State.memRead_ok s (hmem r List.mem_cons_self)]
      show (match drawColumns _ _ _ _ _ _ with | .ok a => _ | .error e => _) = _
      rw [hf1]
      show s.drawRows vx vy rs _ = _
      rw [hf]
      congr 2
      have hrow : s.rowsHit f1 vx vy rs = s.rowsHit acc.1 vx vy rs := by
        unfold State.rowsHit rowHits
        rw [Bool.eq_iff_iff, List.any_eq_true, List.any_eq_true]
        refine exists_congr fun q => and_congr_right fun hq => ?_
        rw [List.any_eq_true, List.any_eq_true]
        refine exists_congr fun c => and_congr_right fun _ => ?_
        have h1 := hp1 ⟨(vx + c) % 64, Nat.mod_lt _ (by omega)⟩ ⟨(vy + q) % 32, Nat.mod_lt _ (by omega)⟩
        have h2 : rowCovers (s.byteAt (s.effAddr r)) vx (vy + r) (List.range 8) ((vx + c) % 64) ((vy + q) % 32) =
            false := by
          rw [rowCovers, List.any_eq_false]
          intro d _
          simp [hne q hq]
        simp only [h2, Bool.xor_false] at h1
        rw [← Bool.eq_iff_iff]
        exact congrArg _ h1
      show (acc.2 || _ || s.rowsHit f1 vx vy rs) = _
      rw [hrow]
      simp [State.rowsHit, Bool.or_assoc]
    · rw [hp x y]
      show xor (pixelAt f1 _ _) _ = _
      rw [hp1 x y]
      simp only [State.rowsCover, List.any_cons]
      by_cases hy : (vy + r) % 32 = y.val
      · have : (rs.any fun q => rowCovers (s.byteAt (s.effAddr q)) vx (vy + q) (List.range 8) x.val y.val) = false := by
          rw [List.any_eq_false]
          intro q hq
          have hq' := hne q hq
          rw [hy] at hq'
          simp [rowCovers, Ne.symm hq']
        rw [this]
        simp
      · have : rowCovers (s.byteAt (s.effAddr r)) vx (vy + r) (List.range 8) x.val y.val = false := by
          simp [rowCovers, hy]
        rw [this]
        simp

/-- Columns drawn without a failure are followed by the rest. -/
theorem drawColumns_append (e : DisplayEdge) (b : Byte) (vx py : Nat) (cs ds : List Nat) (acc acc' : Framebuffer × Bool)
    (h : drawColumns e b vx py cs acc = .ok acc') :
    drawColumns e b vx py (cs ++ ds) acc = drawColumns e b vx py ds acc' := by
  induction cs generalizing acc with
  | nil =>
    injection h with h
    subst h
    rfl
  | cons c cs ih =>
    rw [drawColumns] at h
    rw [List.cons_append, drawColumns]
    split at h
    · rename_i hb
      rw [if_pos hb]
      split at h
      · exact ih _ h
      · cases h
    · rename_i hb
      rw [if_neg hb]
      exact ih _ h

/-- Rows drawn without a failure are followed by the rest. -/
theorem State.drawRows_append (s : State) (vx vy : Nat) (rs qs : List Nat) (acc acc' : Framebuffer × Bool)
    (h : s.drawRows vx vy rs acc = .ok acc') :
    s.drawRows vx vy (rs ++ qs) acc = s.drawRows vx vy qs acc' := by
  induction rs generalizing acc with
  | nil =>
    injection h with h
    subst h
    rfl
  | cons r rs ih =>
    rw [State.drawRows] at h
    rw [List.cons_append, State.drawRows]
    split at h
    · split at h
      · exact ih _ h
      · cases h
    · cases h

end Sys2Proof.Machine
end

