-- ==== Sys2Proof/Laws/PerInstr.lean ====
section
/-! SUPPORT. The family EncodeRow, one lemma per constructor of Instr: an instruction's word selects the row of the opcode
map that bears its mnemonic (rule R84). -/

namespace Sys2Proof

/-- The word of `i` selects the opcode map's row with `i`'s mnemonic (R84). -/
def Laws.EncodeRow.Statement (i : Instr) : Prop :=
  ∃ r ∈ opcodeRows, r.id = i.mnemonic ∧ r.selects (encode i) = true

theorem Laws.EncodeRow.cls : Laws.EncodeRow.Statement (.cls) :=
  ⟨⟨"CLS", 0x00E0, 0xFFFF⟩, by decide, rfl, beq_iff_eq.mpr (rfl)⟩

theorem Laws.EncodeRow.ret : Laws.EncodeRow.Statement (.ret) :=
  ⟨⟨"RET", 0x00EE, 0xFFFF⟩, by decide, rfl, beq_iff_eq.mpr (rfl)⟩

theorem Laws.EncodeRow.jp (nnn : Addr) : Laws.EncodeRow.Statement (.jp nnn) :=
  ⟨⟨"JP", 0x1000, 0xF000⟩, by decide, rfl, beq_iff_eq.mpr (encodeA_and _ _)⟩

theorem Laws.EncodeRow.call (nnn : Addr) : Laws.EncodeRow.Statement (.call nnn) :=
  ⟨⟨"CALL", 0x2000, 0xF000⟩, by decide, rfl, beq_iff_eq.mpr (encodeA_and _ _)⟩

theorem Laws.EncodeRow.seVxNn (x : RegIdx) (nn : Byte) : Laws.EncodeRow.Statement (.seVxNn x nn) :=
  ⟨⟨"SE_VX_NN", 0x3000, 0xF000⟩, by decide, rfl, beq_iff_eq.mpr (encodeI_and _ _ _)⟩

theorem Laws.EncodeRow.sneVxNn (x : RegIdx) (nn : Byte) : Laws.EncodeRow.Statement (.sneVxNn x nn) :=
  ⟨⟨"SNE_VX_NN", 0x4000, 0xF000⟩, by decide, rfl, beq_iff_eq.mpr (encodeI_and _ _ _)⟩

theorem Laws.EncodeRow.seVxVy (x y : RegIdx) : Laws.EncodeRow.Statement (.seVxVy x y) :=
  ⟨⟨"SE_VX_VY", 0x5000, 0xF00F⟩, by decide, rfl, beq_iff_eq.mpr (encodeR_and_function _ _ _ _)⟩

theorem Laws.EncodeRow.ldVxNn (x : RegIdx) (nn : Byte) : Laws.EncodeRow.Statement (.ldVxNn x nn) :=
  ⟨⟨"LD_VX_NN", 0x6000, 0xF000⟩, by decide, rfl, beq_iff_eq.mpr (encodeI_and _ _ _)⟩

theorem Laws.EncodeRow.addVxNn (x : RegIdx) (nn : Byte) : Laws.EncodeRow.Statement (.addVxNn x nn) :=
  ⟨⟨"ADD_VX_NN", 0x7000, 0xF000⟩, by decide, rfl, beq_iff_eq.mpr (encodeI_and _ _ _)⟩

theorem Laws.EncodeRow.ldVxVy (x y : RegIdx) : Laws.EncodeRow.Statement (.ldVxVy x y) :=
  ⟨⟨"LD_VX_VY", 0x8000, 0xF00F⟩, by decide, rfl, beq_iff_eq.mpr (encodeR_and_function _ _ _ _)⟩

theorem Laws.EncodeRow.or (x y : RegIdx) : Laws.EncodeRow.Statement (.or x y) :=
  ⟨⟨"OR", 0x8001, 0xF00F⟩, by decide, rfl, beq_iff_eq.mpr (encodeR_and_function _ _ _ _)⟩

theorem Laws.EncodeRow.and (x y : RegIdx) : Laws.EncodeRow.Statement (.and x y) :=
  ⟨⟨"AND", 0x8002, 0xF00F⟩, by decide, rfl, beq_iff_eq.mpr (encodeR_and_function _ _ _ _)⟩

theorem Laws.EncodeRow.xor (x y : RegIdx) : Laws.EncodeRow.Statement (.xor x y) :=
  ⟨⟨"XOR", 0x8003, 0xF00F⟩, by decide, rfl, beq_iff_eq.mpr (encodeR_and_function _ _ _ _)⟩

theorem Laws.EncodeRow.addVxVy (x y : RegIdx) : Laws.EncodeRow.Statement (.addVxVy x y) :=
  ⟨⟨"ADD_VX_VY", 0x8004, 0xF00F⟩, by decide, rfl, beq_iff_eq.mpr (encodeR_and_function _ _ _ _)⟩

theorem Laws.EncodeRow.sub (x y : RegIdx) : Laws.EncodeRow.Statement (.sub x y) :=
  ⟨⟨"SUB", 0x8005, 0xF00F⟩, by decide, rfl, beq_iff_eq.mpr (encodeR_and_function _ _ _ _)⟩

theorem Laws.EncodeRow.shr (x y : RegIdx) : Laws.EncodeRow.Statement (.shr x y) :=
  ⟨⟨"SHR", 0x8006, 0xF00F⟩, by decide, rfl, beq_iff_eq.mpr (encodeR_and_function _ _ _ _)⟩

theorem Laws.EncodeRow.subn (x y : RegIdx) : Laws.EncodeRow.Statement (.subn x y) :=
  ⟨⟨"SUBN", 0x8007, 0xF00F⟩, by decide, rfl, beq_iff_eq.mpr (encodeR_and_function _ _ _ _)⟩

theorem Laws.EncodeRow.shl (x y : RegIdx) : Laws.EncodeRow.Statement (.shl x y) :=
  ⟨⟨"SHL", 0x800E, 0xF00F⟩, by decide, rfl, beq_iff_eq.mpr (encodeR_and_function _ _ _ _)⟩

theorem Laws.EncodeRow.sneVxVy (x y : RegIdx) : Laws.EncodeRow.Statement (.sneVxVy x y) :=
  ⟨⟨"SNE_VX_VY", 0x9000, 0xF00F⟩, by decide, rfl, beq_iff_eq.mpr (encodeR_and_function _ _ _ _)⟩

theorem Laws.EncodeRow.ldINnn (nnn : Addr) : Laws.EncodeRow.Statement (.ldINnn nnn) :=
  ⟨⟨"LD_I_NNN", 0xA000, 0xF000⟩, by decide, rfl, beq_iff_eq.mpr (encodeA_and _ _)⟩

theorem Laws.EncodeRow.jpV0 (nnn : Addr) : Laws.EncodeRow.Statement (.jpV0 nnn) :=
  ⟨⟨"JP_V0", 0xB000, 0xF000⟩, by decide, rfl, beq_iff_eq.mpr (encodeA_and _ _)⟩

theorem Laws.EncodeRow.rnd (x : RegIdx) (nn : Byte) : Laws.EncodeRow.Statement (.rnd x nn) :=
  ⟨⟨"RND", 0xC000, 0xF000⟩, by decide, rfl, beq_iff_eq.mpr (encodeI_and _ _ _)⟩

theorem Laws.EncodeRow.drw (x y : RegIdx) (n : Nibble) : Laws.EncodeRow.Statement (.drw x y n) :=
  ⟨⟨"DRW", 0xD000, 0xF000⟩, by decide, rfl, beq_iff_eq.mpr (encodeR_and _ _ _ _)⟩

theorem Laws.EncodeRow.skp (x : RegIdx) : Laws.EncodeRow.Statement (.skp x) :=
  ⟨⟨"SKP", 0xE09E, 0xF0FF⟩, by decide, rfl, beq_iff_eq.mpr (encodeI_and_function _ _ _)⟩

theorem Laws.EncodeRow.sknp (x : RegIdx) : Laws.EncodeRow.Statement (.sknp x) :=
  ⟨⟨"SKNP", 0xE0A1, 0xF0FF⟩, by decide, rfl, beq_iff_eq.mpr (encodeI_and_function _ _ _)⟩

theorem Laws.EncodeRow.ldVxDt (x : RegIdx) : Laws.EncodeRow.Statement (.ldVxDt x) :=
  ⟨⟨"LD_VX_DT", 0xF007, 0xF0FF⟩, by decide, rfl, beq_iff_eq.mpr (encodeI_and_function _ _ _)⟩

theorem Laws.EncodeRow.ldVxK (x : RegIdx) : Laws.EncodeRow.Statement (.ldVxK x) :=
  ⟨⟨"LD_VX_K", 0xF00A, 0xF0FF⟩, by decide, rfl, beq_iff_eq.mpr (encodeI_and_function _ _ _)⟩

theorem Laws.EncodeRow.ldDtVx (x : RegIdx) : Laws.EncodeRow.Statement (.ldDtVx x) :=
  ⟨⟨"LD_DT_VX", 0xF015, 0xF0FF⟩, by decide, rfl, beq_iff_eq.mpr (encodeI_and_function _ _ _)⟩

theorem Laws.EncodeRow.ldStVx (x : RegIdx) : Laws.EncodeRow.Statement (.ldStVx x) :=
  ⟨⟨"LD_ST_VX", 0xF018, 0xF0FF⟩, by decide, rfl, beq_iff_eq.mpr (encodeI_and_function _ _ _)⟩

theorem Laws.EncodeRow.addIVx (x : RegIdx) : Laws.EncodeRow.Statement (.addIVx x) :=
  ⟨⟨"ADD_I_VX", 0xF01E, 0xF0FF⟩, by decide, rfl, beq_iff_eq.mpr (encodeI_and_function _ _ _)⟩

theorem Laws.EncodeRow.ldFVx (x : RegIdx) : Laws.EncodeRow.Statement (.ldFVx x) :=
  ⟨⟨"LD_F_VX", 0xF029, 0xF0FF⟩, by decide, rfl, beq_iff_eq.mpr (encodeI_and_function _ _ _)⟩

theorem Laws.EncodeRow.ldHfVx (x : RegIdx) : Laws.EncodeRow.Statement (.ldHfVx x) :=
  ⟨⟨"LD_HF_VX", 0xF030, 0xF0FF⟩, by decide, rfl, beq_iff_eq.mpr (encodeI_and_function _ _ _)⟩

theorem Laws.EncodeRow.ldBVx (x : RegIdx) : Laws.EncodeRow.Statement (.ldBVx x) :=
  ⟨⟨"LD_B_VX", 0xF033, 0xF0FF⟩, by decide, rfl, beq_iff_eq.mpr (encodeI_and_function _ _ _)⟩

theorem Laws.EncodeRow.ldMemVx (x : RegIdx) : Laws.EncodeRow.Statement (.ldMemVx x) :=
  ⟨⟨"LD_MEM_VX", 0xF055, 0xF0FF⟩, by decide, rfl, beq_iff_eq.mpr (encodeI_and_function _ _ _)⟩

theorem Laws.EncodeRow.ldVxMem (x : RegIdx) : Laws.EncodeRow.Statement (.ldVxMem x) :=
  ⟨⟨"LD_VX_MEM", 0xF065, 0xF0FF⟩, by decide, rfl, beq_iff_eq.mpr (encodeI_and_function _ _ _)⟩

end Sys2Proof
end

