-- ==== Sys2Proof/Tests/Slice0.lean ====
section
/-! SUPPORT. Small checks: the operand ranges, every constructor's decoding from a word written out from rule R84, the
spec's own vectors (spec/95_test_vectors.md; each test names its vector), and, for every obligation with hypotheses, a
concrete state that meets them. -/

namespace Sys2Proof.Tests
open Sys2Proof.Machine

/-! The states the tests start from. -/

/-- The launch state (R246) of the one-instruction program `w`. -/
def launch (w : Word) : State := loadProgram [highByte w, lowByte w] State.reset

/-- A fact about the state after one step. -/
def after {α : Type} (f : State → α) (s : State) : Option α :=
  match step s with
  | .next t => some (f t)
  | _ => none

/-- `s` with some registers set. -/
def withRegs (rs : List (RegIdx × Byte)) (s : State) : State := rs.foldl (fun t r => t.setReg r.1 r.2) s

/-- `s` with bytes stored from an address on. -/
def withBytes (a : Nat) (bs : List Byte) (s : State) : State :=
  { s with mem := Memory.writeList s.config s.mem a bs }

/-- `s` under the other edge policy. -/
def rejecting (s : State) : State := { s with config := { s.config with displayEdge := .reject } }

/-- `s` in strict mode. -/
def strict (s : State) : State := { s with config := { s.config with strictDecode := true } }

/-- The set pixels of a display in the columns `xs` and the rows `ys`, row by row, as (x, y). -/
def setPixels (xs ys : List Nat) (s : State) : List (Nat × Nat) :=
  ys.flatMap fun y => (xs.filter fun x => pixelAt s.fb x y).map fun x => (x, y)

/-- The record of a fault of the instruction `w` at 0x200. -/
def recordAt200 (c : Cause) (w : Word) : Option FaultRecord := some { cause := c, fpc := some 0x200, fop := some w }

/-! The operand ranges refuse ill-formed operands (R82). -/

theorem test_reg_range : (Operand.reg 15).wf = true ∧ (Operand.reg 16).wf = false := by decide
theorem test_imm4_range : (Operand.imm4 15).wf = true ∧ (Operand.imm4 16).wf = false := by decide
theorem test_imm8_range : (Operand.imm8 255).wf = true ∧ (Operand.imm8 256).wf = false := by decide
theorem test_addr_range : (Operand.addr 4095).wf = true ∧ (Operand.addr 4096).wf = false := by decide
theorem test_wf_operands : (Instr.drw 1 2 15).operands = [.reg 1, .reg 2, .imm4 15] := by decide

/-! Decoding, one word per row of R84, fields filled in by hand; DE1 to DE16 where the spec has a vector. -/

theorem test_decode_cls : decode 0x00E0 = .ok .cls := by decide
theorem test_decode_ret : decode 0x00EE = .ok .ret := by decide
theorem test_decode_jp : decode 0x1ABC = .ok (.jp 0xABC) := by decide
theorem test_decode_call : decode 0x2F01 = .ok (.call 0xF01) := by decide
theorem test_decode_seVxNn : decode 0x332A = .ok (.seVxNn 3 0x2A) := by decide
theorem test_decode_sneVxNn : decode 0x4C8F = .ok (.sneVxNn 12 0x8F) := by decide
theorem test_decode_seVxVy : decode 0x5AB0 = .ok (.seVxVy 10 11) := by decide
theorem test_decode_ldVxNn : decode 0x6A05 = .ok (.ldVxNn 10 5) := by decide
theorem test_decode_addVxNn : decode 0x7F01 = .ok (.addVxNn 15 1) := by decide
theorem test_decode_ldVxVy : decode 0x8120 = .ok (.ldVxVy 1 2) := by decide
theorem test_decode_or : decode 0x81F1 = .ok (.or 1 15) := by decide
theorem test_decode_and : decode 0x8342 = .ok (.and 3 4) := by decide
theorem test_decode_xor : decode 0x8563 = .ok (.xor 5 6) := by decide
theorem test_decode_addVxVy : decode 0x8AB4 = .ok (.addVxVy 10 11) := by decide
theorem test_decode_sub : decode 0x8F25 = .ok (.sub 15 2) := by decide
theorem test_decode_shr : decode 0x8AB6 = .ok (.shr 10 11) := by decide
theorem test_decode_subn : decode 0x8127 = .ok (.subn 1 2) := by decide
theorem test_decode_shl : decode 0x8F2E = .ok (.shl 15 2) := by decide
theorem test_decode_sneVxVy : decode 0x9120 = .ok (.sneVxVy 1 2) := by decide
theorem test_decode_ldINnn : decode 0xA2F0 = .ok (.ldINnn 0x2F0) := by decide
theorem test_decode_jpV0 : decode 0xBFFF = .ok (.jpV0 0xFFF) := by decide
theorem test_decode_rnd : decode 0xC10F = .ok (.rnd 1 0x0F) := by decide
theorem test_decode_drw : decode 0xD12F = .ok (.drw 1 2 15) := by decide
theorem test_decode_skp : decode 0xE09E = .ok (.skp 0) := by decide
theorem test_decode_sknp : decode 0xE1A1 = .ok (.sknp 1) := by decide
theorem test_decode_ldVxDt : decode 0xF307 = .ok (.ldVxDt 3) := by decide
theorem test_decode_ldVxK : decode 0xF20A = .ok (.ldVxK 2) := by decide
theorem test_decode_ldDtVx : decode 0xF315 = .ok (.ldDtVx 3) := by decide
theorem test_decode_ldStVx : decode 0xF418 = .ok (.ldStVx 4) := by decide
theorem test_decode_addIVx : decode 0xFA1E = .ok (.addIVx 10) := by decide
theorem test_decode_ldFVx : decode 0xF129 = .ok (.ldFVx 1) := by decide
theorem test_decode_ldHfVx : decode 0xFF30 = .ok (.ldHfVx 15) := by decide
theorem test_decode_ldBVx : decode 0xF033 = .ok (.ldBVx 0) := by decide
theorem test_decode_ldMemVx : decode 0xF255 = .ok (.ldMemVx 2) := by decide
theorem test_decode_ldVxMem : decode 0xF965 = .ok (.ldVxMem 9) := by decide

/-- DE3. -/
theorem test_decode_unknown0 :
    decode 0x00EF = .error (.unknownOpcode 0x00EF) ∧
      decode 0x00E1 = .error (.unknownOpcode 0x00E1) ∧
      decode 0x01E0 = .error (.unknownOpcode 0x01E0) ∧
      decode 0x0000 = .error (.unknownOpcode 0x0000) ∧
      decode 0x0FFF = .error (.unknownOpcode 0x0FFF) := by decide
/-- DE6, DE15. -/
theorem test_decode_unknown8 :
    decode 0x8AB8 = .error (.unknownOpcode 0x8AB8) ∧
      decode 0x8ABF = .error (.unknownOpcode 0x8ABF) ∧
      decode 0x5AB1 = .error (.unknownOpcode 0x5AB1) ∧
      decode 0x9AB1 = .error (.unknownOpcode 0x9AB1) := by decide
/-- DE9, DE11. -/
theorem test_decode_unknownF :
    decode 0xF966 = .error (.unknownOpcode 0xF966) ∧
      decode 0xF900 = .error (.unknownOpcode 0xF900) ∧
      decode 0xFFFF = .error (.unknownOpcode 0xFFFF) ∧
      decode 0xE09F = .error (.unknownOpcode 0xE09F) ∧
      decode 0xE0A0 = .error (.unknownOpcode 0xE0A0) ∧
      decode 0xEFFF = .error (.unknownOpcode 0xEFFF) := by decide

/-- DE16: the byte at the lower address is the high byte; R80: two bytes are needed. -/
theorem test_decode_bytes :
    decodeBytes [0x6A, 0x05, 0x77] = .ok (.ldVxNn 10 5, [0x77]) ∧ decodeBytes [0x6A] = .error .truncated := by decide

/-- The words of DE4 and DE7, put together from their fields. -/
theorem test_encode : encode (.drw 1 2 15) = 0xD12F ∧ encode (.shr 10 11) = 0x8AB6 := by decide

theorem test_decodeTableWord :
    decodeTableWord 16 0xD12F = some (.drw 1 2 15) ∧ decodeTableWord 16 0x5AB1 = none := by decide

/-! One step on the spec's vectors (spec/95_test_vectors.md, 2.1 to 2.5). -/

/-- DP15. -/
theorem test_cls : after (fun t => (setPixels (List.range 9) [2, 3] t, t.draw, t.reg 15))
    { withRegs [(15, 9)] (launch 0x00E0) with fb := flipPixel clearFb 7 3, draw := false } =
      some ([], true, 9) := by decide
/-- DP1. -/
theorem test_drw_glyph : after (fun t => (setPixels (List.range 9) (List.range 6) t, t.reg 15)) (launch 0xD125) =
    some ([(0,0), (1,0), (2,0), (3,0), (0,1), (3,1), (0,2), (3,2), (0,3), (3,3), (0,4), (1,4), (2,4), (3,4)], 0) := by
  decide
/-- DP7. -/
theorem test_drw_wraps : after (fun t => (setPixels (List.range 64) [5] t, t.reg 15))
    { withBytes 0x300 [0xFF] (withRegs [(1, 60), (2, 5)] (launch 0xD121)) with I := 0x300 } =
      some ([(0,5), (1,5), (2,5), (3,5), (60,5), (61,5), (62,5), (63,5)], 0) := by decide
/-- CF7. -/
theorem test_ret : after (fun t => (t.pc, t.sp, t.draw, t.stack[0]))
    { launch 0x00EE with sp := 1, stack := State.reset.stack.set 0 0x456, draw := false } =
      some (0x456, 0, true, 0x456) := by decide
/-- CF6. -/
theorem test_ret_underflow : after (fun t => (t.run, t.pc, t.draw, t.fault)) (launch 0x00EE) =
    some (.halted, 0x200, true, recordAt200 .stackUnderflow 0x00EE) := by decide
/-- CF1. -/
theorem test_jp : after State.pc (launch 0x1ABC) = some 0xABC := by decide
/-- CF2. -/
theorem test_jp_self : after id (launch 0x1200) = some (launch 0x1200) := by decide
/-- CF4. -/
theorem test_call : after (fun t => (t.stack[0], t.sp, t.pc)) (launch 0x2ABC) = some (0x202, 1, 0xABC) := by decide
/-- CF5. -/
theorem test_call_overflow : after (fun t => (t.run, t.pc, t.sp, t.fault)) { launch 0x2ABC with sp := 16 } =
    some (.halted, 0x200, 16, recordAt200 .stackOverflow 0x2ABC) := by decide
/-- CF8, CF9. -/
theorem test_seVxNn : after State.pc (withRegs [(3, 0x2A)] (launch 0x332A)) = some 0x204 ∧
    after State.pc (withRegs [(3, 0x2A)] (launch 0x332B)) = some 0x202 := by decide
/-- CF10, CF11. -/
theorem test_sneVxNn : after State.pc (withRegs [(3, 0x2A)] (launch 0x432A)) = some 0x202 ∧
    after State.pc (withRegs [(3, 0x2A)] (launch 0x432B)) = some 0x204 := by decide
/-- CF12, CF13. -/
theorem test_seVxVy : after State.pc (withRegs [(1, 7), (2, 7)] (launch 0x5120)) = some 0x204 ∧
    after State.pc (withRegs [(1, 7), (2, 8)] (launch 0x5120)) = some 0x202 := by decide
/-- CF15, CF16. -/
theorem test_sneVxVy : after State.pc (withRegs [(1, 7), (2, 8)] (launch 0x9120)) = some 0x204 ∧
    after State.pc (withRegs [(1, 7), (2, 7)] (launch 0x9120)) = some 0x202 := by decide
/-- CF19. -/
theorem test_jpV0 : after State.pc (withRegs [(0, 0xFF)] (launch 0xBFFF)) = some 0x10FE := by decide
/-- A62. -/
theorem test_ldVxNn : after (fun t => (t.reg 10, t.pc)) (launch 0x6A05) = some (5, 0x202) := by decide
/-- A64. -/
theorem test_addVxNn : after (fun t => (t.reg 1, t.reg 15)) (withRegs [(1, 0xFF)] (launch 0x7102)) =
    some (1, 0) := by decide
/-- A55. -/
theorem test_ldVxVy : after (fun t => (t.reg 1, t.reg 15))
    (withRegs [(1, 0xF0), (2, 0x3C), (15, 0x55)] (launch 0x8120)) = some (0x3C, 0x55) := by decide
/-- A56. -/
theorem test_or : after (fun t => (t.reg 1, t.reg 15))
    (withRegs [(1, 0xF0), (2, 0x3C), (15, 0x55)] (launch 0x8121)) = some (0xFC, 0x55) := by decide
/-- A57. -/
theorem test_and : after (fun t => (t.reg 1, t.reg 15))
    (withRegs [(1, 0xF0), (2, 0x3C), (15, 0x55)] (launch 0x8122)) = some (0x30, 0x55) := by decide
/-- A58. -/
theorem test_xor : after (fun t => (t.reg 1, t.reg 15))
    (withRegs [(1, 0xF0), (2, 0x3C), (15, 0x55)] (launch 0x8123)) = some (0xCC, 0x55) := by decide
/-- A1. -/
theorem test_addVxVy : after (fun t => (t.reg 1, t.reg 15)) (withRegs [(1, 0xC8), (2, 0x64)] (launch 0x8124)) =
    some (0x2C, 1) := by decide
/-- A7. -/
theorem test_addVxVy_vf : after (fun t => t.reg 15) (withRegs [(2, 0x64), (15, 0xC8)] (launch 0x8F24)) =
    some 1 := by decide
/-- A14. -/
theorem test_sub_equal : after (fun t => (t.reg 1, t.reg 15)) (withRegs [(1, 5), (2, 5), (15, 1)] (launch 0x8125)) =
    some (0, 0) := by decide
/-- A22. -/
theorem test_sub_vf : after (fun t => (t.reg 1, t.reg 15)) (withRegs [(1, 0x0A), (15, 3)] (launch 0x81F5)) =
    some (9, 1) := by decide
/-- A26. -/
theorem test_shr : after (fun t => (t.reg 1, t.reg 2, t.reg 15)) (withRegs [(1, 5), (2, 0x77)] (launch 0x8126)) =
    some (2, 0x77, 1) := by decide
/-- A33. -/
theorem test_shr_vf : after (fun t => t.reg 15) (withRegs [(15, 0xFF)] (launch 0x8F26)) = some 0 := by decide
/-- A36. -/
theorem test_subn : after (fun t => (t.reg 1, t.reg 15)) (withRegs [(1, 0x0A), (2, 3)] (launch 0x8127)) =
    some (0xF9, 0) := by decide
/-- A40. -/
theorem test_subn_vf : after (fun t => t.reg 15) (withRegs [(2, 0x0A), (15, 3)] (launch 0x8F27)) = some 9 := by decide
/-- A47. -/
theorem test_shl : after (fun t => (t.reg 1, t.reg 2, t.reg 15)) (withRegs [(1, 0x81), (2, 0x77)] (launch 0x812E)) =
    some (2, 0x77, 1) := by decide
/-- A52. -/
theorem test_shl_vf : after (fun t => t.reg 15) (withRegs [(15, 0x80)] (launch 0x8F2E)) = some 2 := by decide
/-- A68, with the drawn byte left free. -/
theorem test_rnd : after (fun t => (t.reg 1, t.draws)) (launch 0xC10F) = some (Config.draw8 0 &&& 0x0F, 1) := by rfl
/-- IM2. -/
theorem test_ldINnn : after State.I (launch 0xAFFF) = some 0xFFF := by decide
/-- IM5. -/
theorem test_addIVx : after (fun t => (t.I, t.reg 15)) { withRegs [(1, 1)] (launch 0xF11E) with I := 0xFFFF } =
    some (0, 0) := by decide
/-- IM11. -/
theorem test_ldFVx : after State.I (withRegs [(1, 0xFF)] (launch 0xF129)) = some 0x4FB := by decide
/-- IM12. -/
theorem test_ldHfVx : after id { withRegs [(3, 9)] (launch 0xF330) with I := 0x123 } =
    some { withRegs [(3, 9)] (launch 0xF330) with I := 0x123, pc := 0x202 } := by decide
/-- IM13, S5. -/
theorem test_ldBVx : after (fun t => (t.byteAt 0x300, t.byteAt 0x301, t.byteAt 0x302))
    { withRegs [(0, 157)] (launch 0xF033) with I := 0x300 } = some (1, 5, 7) := by decide
/-- IM15. -/
theorem test_ldBVx_fault : after (fun t => (t.fault, t.byteAt 0xFFE, t.byteAt 0xFFF))
    { withRegs [(0, 0xFF)] (launch 0xF033) with I := 0xFFE } =
      some (recordAt200 (.addressOutOfRange (.mem 0x1000)) 0xF033, 0, 0) := by decide
/-- IM18. -/
theorem test_ldMemVx : after (fun t => (t.byteAt 0x400, t.byteAt 0x401, t.byteAt 0x402, t.byteAt 0x403, t.I))
    { withRegs [(0, 0x11), (1, 0x22), (2, 0x33), (3, 0x44)] (launch 0xF255) with I := 0x400 } =
      some (0x11, 0x22, 0x33, 0, 0x400) := by decide
/-- IM20. -/
theorem test_ldMemVx_fault : after (fun t => (t.fault, t.byteAt 0xFFF))
    { withRegs [(0, 0xAB), (1, 0xCD)] (launch 0xF155) with I := 0xFFF } =
      some (recordAt200 (.addressOutOfRange (.mem 0x1000)) 0xF155, 0) := by decide
/-- IM22. -/
theorem test_ldVxMem : after (fun t => (t.reg 0, t.reg 1, t.reg 2, t.reg 3, t.I))
    { withBytes 0x400 [0x11, 0x22, 0x33, 0x44] (withRegs [(3, 0x99)] (launch 0xF265)) with I := 0x400 } =
      some (0x11, 0x22, 0x33, 0x99, 0x400) := by decide
/-- IM23. -/
theorem test_ldVxMem_fault : after (fun t => (t.fault, t.reg 0, t.reg 1))
    { withBytes 0xFFF [0x77] (withRegs [(0, 1), (1, 2)] (launch 0xF165)) with I := 0xFFF } =
      some (recordAt200 (.addressOutOfRange (.mem 0x1000)) 0xF165, 1, 2) := by decide
/-- IT1, IT2. -/
theorem test_skp : after State.pc (setPressed 5 true (withRegs [(1, 5)] (launch 0xE19E))) = some 0x204 ∧
    after State.pc (withRegs [(1, 5)] (launch 0xE19E)) = some 0x202 := by decide
/-- IT5. -/
theorem test_skp_fault : after State.fault (withRegs [(1, 0x10)] (launch 0xE19E)) =
    some (recordAt200 (.addressOutOfRange (.key 0x10)) 0xE19E) := by decide
/-- IT3, IT4. -/
theorem test_sknp : after State.pc (withRegs [(1, 5)] (launch 0xE1A1)) = some 0x204 ∧
    after State.pc (setPressed 5 true (withRegs [(1, 5)] (launch 0xE1A1))) = some 0x202 := by decide
/-- IT6. -/
theorem test_sknp_fault : after State.fault (withRegs [(1, 0xFF)] (launch 0xE1A1)) =
    some (recordAt200 (.addressOutOfRange (.key 0xFF)) 0xE1A1) := by decide
/-- IT8. -/
theorem test_ldVxDt : after (fun t => (t.reg 3, t.DT)) { launch 0xF307 with DT := 0x2A } = some (0x2A, 0x2A) := by decide
/-- IT9. -/
theorem test_ldVxK_waits : after id (launch 0xF20A) = some (launch 0xF20A) := by decide
/-- IT11. -/
theorem test_ldVxK : after (fun t => (t.reg 2, isPressed 3 t, isPressed 9 t, isPressed 12 t, t.pc))
    (setPressed 3 true (setPressed 9 true (setPressed 12 true (launch 0xF20A)))) =
      some (3, false, true, true, 0x202) := by decide
/-- IT13. -/
theorem test_ldDtVx : after State.DT (withRegs [(3, 0x3C)] (launch 0xF315)) = some 0x3C := by decide
/-- IT14, its first step. -/
theorem test_ldStVx : after (fun t => (t.ST, t.outputs)) (withRegs [(3, 2)] (launch 0xF318)) = some (2, []) := by decide

/-! The cycle, the timer tick, resets and loading (2.2, 2.6, 2.7). -/

/-- CF22. -/
theorem test_unknown_report : after (fun t => (t.pc, t.outputs)) (launch 0x0000) =
    some (0x202, [.report 0x200 0]) := by decide
/-- CF21. -/
theorem test_unknown_strict : after (fun t => (t.pc, t.run, t.fault)) (strict (launch 0x5121)) =
    some (0x200, .halted, recordAt200 (.unknownOpcode 0x5121) 0x5121) := by decide
/-- CF26. -/
theorem test_fetch_fault : after State.fault { launch 0x1200 with pc := 0xFFF } =
    some (some { cause := .addressOutOfRange (.mem 0x1000), fpc := some 0xFFF, fop := none }) := by decide
/-- TT1, with the tick scheduled. -/
theorem test_tick : after (fun t => (t.DT, t.ST, t.outputs, t.schedule))
    { launch 0x1200 with DT := 3, ST := 1, schedule := [.timerTick] } = some (2, 0, [.beep], []) := by decide
/-- TT4. -/
theorem test_tick_halted : after (fun t => (t.DT, t.ST, t.outputs))
    { State.reset with DT := 5, ST := 1, schedule := [.timerTick] } = some (5, 1, []) := by decide
/-- RS1 in small: a changed font byte and a pressed key survive softReset. -/
theorem test_softReset : after (fun t => (t.reg 10, t.DT, t.byteAt 0, isPressed 4 t, t.run, t.draw))
    { setPressed 4 true (withBytes 0 [0x55] (withRegs [(10, 5)] (launch 0x1200))) with
      DT := 9, draw := false, schedule := [.softReset] } = some (0, 0, 0x55, true, .running, true) := by decide
/-- RS2 in small: hardReset writes the font again and halts. -/
theorem test_hardReset : after (fun t => (t.byteAt 0, t.byteAt 0x200, isPressed 4 t, t.run))
    { setPressed 4 true (withBytes 0 [0x55] (launch 0x1200)) with schedule := [.hardReset] } =
      some (0xF0, 0, true, .halted) := by decide
/-- RS3 in small. -/
theorem test_loadProgram : after (fun t => (t.byteAt 0, t.byteAt 0x200, t.byteAt 0x201, t.run))
    { withBytes 0 [0x55] State.reset with schedule := [.loadProgram [0x12, 0x00]] } =
      some (0xF0, 0x12, 0, .running) := by decide
/-- RS6: a cycle after power-on changes nothing. -/
theorem test_powerOn_halted : after id State.reset = some State.reset := by decide
/-- The host's fetch helper runs the word as the next step, from reset (A62). -/
theorem test_withFetchWord : after (fun t => (t.reg 10, t.pc)) (State.reset.withFetchWord 16 0x6A05) =
    some (5, 0x202) := by decide

/-! Witnesses: for every obligation with hypotheses, values that meet them, one theorem per clause that has its own. -/

theorem witness_EncodeOfDecodeIsIdentity : decode 0x8AB6 = .ok (.shr 10 11) := by decide

theorem witness_DecodeFollowsTheOpcodeMap : ∃ r ∈ opcodeRows, r.selects 0x8AB6 = true ∧ r.id = "SHR" := by decide

theorem witness_OpcodeRowsAreDisjoint :
    ∃ r ∈ opcodeRows, ∃ r' ∈ opcodeRows, r.selects 0xF965 = true ∧ r'.selects 0xF965 = true := by decide

/-- One word of each class of R85. -/
theorem witness_UnknownWordsAreTheListedOnes :
    ∀ w ∈ [0x0000, 0x5AB1, 0x8AB8, 0x9AB1, 0xE09F, 0xF966], ∃ e, decode w = .error e := by
  simp only [List.mem_cons, List.not_mem_nil, or_false]
  rintro w (rfl | rfl | rfl | rfl | rfl | rfl) <;> exact ⟨_, rfl⟩

theorem witness_StepRunsTheDecodedInstruction :
    (launch 0x8124).run = .running ∧ (launch 0x8124).schedule = [] ∧ (launch 0x8124).fetch = .ok 0x8124 ∧
      decode 0x8124 = .ok (.addVxVy 1 2) := by decide

theorem witness_StepRunsTheDecodedInstruction_scheduled :
    ({ launch 0x8124 with schedule := [.cycle, .timerTick] } : State).run = .running ∧
      ({ launch 0x8124 with schedule := [.cycle, .timerTick] } : State).fetch = .ok 0x8124 := by decide

/-- The highest address an instruction can stand at. -/
theorem witness_FetchIsBigEndian : ({ State.reset with pc := 4094 } : State).pc.toNat ≤ 4094 := by decide

/-- 4095, where the second byte is the first outside memory. -/
theorem witness_FetchOutsideMemoryFaults_4095 :
    ({ launch 0x1200 with pc := 4095 } : State).run = .running ∧
      ({ launch 0x1200 with pc := 4095 } : State).schedule = [] ∧
      4094 < ({ launch 0x1200 with pc := 4095 } : State).pc.toNat := by decide

theorem witness_FetchOutsideMemoryFaults_4096 :
    ({ launch 0x1200 with pc := 4096 } : State).run = .running ∧
      ({ launch 0x1200 with pc := 4096 } : State).schedule = [] ∧
      4094 < ({ launch 0x1200 with pc := 4096 } : State).pc.toNat := by decide

theorem witness_UnknownOpcodeReportsOrFaults :
    (launch 0x5121).run = .running ∧ (launch 0x5121).schedule = [] ∧ (launch 0x5121).fetch = .ok 0x5121 ∧
      (∀ r ∈ opcodeRows, r.selects 0x5121 = false) ∧ (launch 0x5121).config.strictDecode = false := by decide

theorem witness_UnknownOpcodeReportsOrFaults_strict :
    (strict (launch 0x5121)).run = .running ∧ (strict (launch 0x5121)).schedule = [] ∧
      (strict (launch 0x5121)).fetch = .ok 0x5121 ∧ (strict (launch 0x5121)).config.strictDecode = true := by decide

theorem witness_HaltedCoreIgnoresCycleAndTick : State.reset.run = .halted ∧ State.reset.schedule = [] := by decide

/-- One state per clause: its move is the first of the schedule. -/
theorem witness_StepPerformsTheScheduledMove :
    ∀ m ∈ [Move.cycle, .timerTick, .setPressed 15 true, .readFrame, .clearDrawFlag, .loadProgram [], .hardReset,
      .softReset], ({ State.reset with schedule := m :: [] } : State).schedule = [m] := fun _ _ => rfl

theorem witness_FaultsArePrecise : exec .cls State.reset =
    .next ((State.reset.advance.setFb clearFb).setDraw true) := rfl

theorem witness_FaultsArePrecise_fault : exec .ret State.reset =
    .next (State.reset.afterFault .stackUnderflow (some 0x200) (some 0x00EE)) := rfl

/-- A program that ends at the last byte of memory; and one that is a byte too long. -/
theorem witness_LoadProgramEffect_fits : (List.replicate 3584 (0xAA : Byte)).length ≤ 3584 := by
  rw [List.length_replicate]

theorem witness_LoadProgramEffect_tooLong : 3584 < (List.replicate 3585 (0xAA : Byte)).length := by
  rw [List.length_replicate]
  decide

/-- The addresses at both ends of the zeros of the launch state. -/
theorem witness_LoadProgramEffect_ranges : 80 ≤ 80 ∧ 511 < 512 ∧ 512 + [(0x12 : Byte), 0x00].length ≤ 514 ∧ 4095 ≤ 4095 := by
  decide

theorem witness_ClearAllThenFontIsPowerOn : Memory.wf Config.default [(0, 0x55), (0x200, 0x12), (4095, 1)] := by decide

theorem witness_TimerTickEffect : (launch 0x1200).run = .running ∧ State.reset.run = .halted := by decide

/-- ST reaches 0 within the ticks, at the last of them, or not. -/
theorem witness_SoundTimerBeepsOnce :
    ({ launch 0x1200 with ST := 2 } : State).run = .running ∧
      ({ launch 0x1200 with ST := 2 } : State).ST.toNat ≤ 2 ∧
      ¬ ({ launch 0x1200 with ST := 2 } : State).ST.toNat ≤ 1 := by decide

theorem witness_KeyAndRedrawOperations : (0 : Fin 16) ≠ 15 := by decide

/-- A sprite whose last row is the last byte of memory, drawn under `wrap` (DP10b). -/
theorem witness_DrawFlipsTheCoveredPixels_wrap :
    (∀ r, r < (2 : Nibble).toNat → ({ State.reset with I := 0xFFE } : State).effAddr r ≤ 4095) ∧
      ({ State.reset with I := 0xFFE } : State).config.displayEdge = .wrap := by decide

/-- The state of DP8r: under `reject`, the set bits fit and the clear ones do not. -/
def edgeState : State :=
  rejecting { withBytes 0x300 [0xF0] (withRegs [(1, 60), (2, 5)] State.reset) with I := 0x300 }

theorem witness_DrawFlipsTheCoveredPixels_reject :
    (∀ r, r < (1 : Nibble).toNat → edgeState.effAddr r ≤ 4095) ∧ edgeState.config.displayEdge = .reject ∧
      ∀ r, r < (1 : Nibble).toNat → ∀ c, c < 8 →
        edgeState.BitFits (edgeState.reg 1).toNat (edgeState.reg 2).toNat r c := by
  unfold State.BitFits
  decide

/-- The state of DP14: (0,0) is set and (1,0) is not, and the sprite covers both. -/
def hitState : State := { withBytes 0x300 [0xC0] State.reset with I := 0x300, fb := flipPixel clearFb 0 0 }

theorem witness_DrawFlipsTheCoveredPixels_hit :
    hitState.Covers 0 0 1 0 0 ∧ getPixel 0 0 hitState = true ∧ hitState.Covers 0 0 1 1 0 ∧
      getPixel 1 0 hitState = false := by
  unfold State.Covers
  exact ⟨⟨0, by decide, 0, by decide⟩, by decide, ⟨0, by decide, 1, by decide⟩, by decide⟩

/-- An all-zero sprite covers nothing. -/
theorem witness_DrawFlipsTheCoveredPixels_noHit :
    ¬ ∃ (px : Fin 64) (py : Fin 32), ({ State.reset with I := 0x300 } : State).Covers 0 0 1 px.val py.val ∧
      getPixel px py { State.reset with I := 0x300 } = true := by
  rintro ⟨px, py, ⟨r, hr, c, hc, hb, -⟩, -⟩
  revert r c
  decide

/-- DP10: the third row's byte is outside memory. -/
theorem witness_DrawFaultsInLoopOrder_memory :
    2 < (3 : Nibble).toNat ∧ (∀ r, r < 2 → ({ State.reset with I := 0xFFE } : State).effAddr r ≤ 4095) ∧
      ({ State.reset with I := 0xFFE } : State).config.displayEdge = .wrap ∧
      4095 < ({ State.reset with I := 0xFFE } : State).effAddr 2 := by decide

/-- The state of DP12: row 0's one set bit is outside the grid, row 1's byte outside memory. -/
def outsideState : State := rejecting { withBytes 0xFFF [0x01] (withRegs [(1, 60)] State.reset) with I := 0xFFF }

/-- Row 0's pixel fails before row 1's memory read is tried. -/
theorem witness_DrawFaultsInLoopOrder_display :
    0 < (2 : Nibble).toNat ∧ outsideState.effAddr 0 ≤ 4095 ∧ outsideState.config.displayEdge = .reject ∧
      (∀ c, c < 7 → outsideState.BitFits (outsideState.reg 1).toNat (outsideState.reg 2).toNat 0 c) ∧
      ¬ outsideState.BitFits (outsideState.reg 1).toNat (outsideState.reg 2).toNat 0 7 := by
  unfold State.BitFits
  decide

theorem witness_DrawingTwiceRestoresTheDisplay :
    (∀ r, r < (1 : Nibble).toNat → hitState.effAddr r ≤ 4095) ∧ hitState.config.displayEdge = .wrap := by decide

/-- Where every covered pixel is set, no covered pixel is clear: the second draw's VF is 0. -/
theorem witness_DrawingTwiceRestoresTheDisplay_noneClear :
    ¬ ∃ (px : Fin 64) (py : Fin 32),
      ({ withBytes 0x300 [0x80] State.reset with I := 0x300, fb := flipPixel clearFb 0 0 } : State).Covers 0 0 1 px.val
        py.val ∧ getPixel px py { withBytes 0x300 [0x80] State.reset with I := 0x300, fb := flipPixel clearFb 0 0 } =
          false := by
  rintro ⟨px, py, ⟨r, hr, c, hc, hb, hx, hy⟩, hp⟩
  obtain rfl : r = 0 := by omega
  have h0 : ∀ d, d < 8 → ({ withBytes 0x300 [0x80] State.reset with
      I := 0x300, fb := flipPixel clearFb 0 0 } : State).spriteBit 0 d = true → d = 0 := by decide
  obtain rfl := h0 c hc hb
  obtain rfl : px = 0 := Fin.ext hx.symm
  obtain rfl : py = 0 := Fin.ext hy.symm
  revert hp
  decide

/-- Stack depths 1 and 16 with their top entries, and 0. -/
theorem witness_ReturnPopsTheCallStack :
    ({ State.reset with sp := 1 } : State).sp.val = (0 : Fin 16).val + 1 ∧
      ({ State.reset with sp := 16 } : State).sp.val = (15 : Fin 16).val + 1 ∧ State.reset.sp.val = 0 := by decide

/-- Stack depths 0 and 15, and 16. -/
theorem witness_CallPushesTheReturnAddress :
    State.reset.sp.val = (0 : Fin 16).val ∧ ({ State.reset with sp := 15 } : State).sp.val = (15 : Fin 16).val ∧
      ({ State.reset with sp := 16 } : State).sp.val = 16 := by decide

/-- The deepest call; entry 15 is the dead one and entry 0 a live one. -/
theorem witness_CallThenReturnResumesAfterTheCall :
    ({ State.reset with sp := 15 } : State).sp.val < 16 ∧
      (15 : Fin 16).val = ({ State.reset with sp := 15 } : State).sp.val ∧
      (0 : Fin 16).val ≠ ({ State.reset with sp := 15 } : State).sp.val := by decide

theorem witness_SelfJumpChangesNothing :
    (launch 0x1200).run = .running ∧ (launch 0x1200).schedule = [] ∧ (launch 0x1200).SelfJump :=
  ⟨by decide, by decide, 0x200, by decide, by decide⟩

/-- A register that is not Vx, for RegisterLoads, AddImmediate, BitwiseLogic and TimerAccess with x = 14. -/
theorem witness_RegisterLoads : (15 : RegIdx) ≠ 14 := by decide

/-- The four cases of x and y being 15 or not, and a register that is neither, for AddWithCarry, Subtract,
SubtractReversed, ShiftRight and ShiftLeft. -/
theorem witness_Subtract :
    ((14 : RegIdx) ≠ 15 ∧ (0 : RegIdx) ≠ 15) ∧ ((15 : RegIdx) = 15 ∧ (0 : RegIdx) ≠ 15) ∧
      ((14 : RegIdx) ≠ 15 ∧ (15 : RegIdx) = 15) ∧ (1 : RegIdx) ≠ 14 := by decide

theorem witness_RandomByteIsMasked : (0 : Byte) = 0 ∧ (1 : RegIdx) ≠ 0 := by decide

/-- 4093 is the highest I at which three bytes fit, 4094 the lowest at which they do not; an address outside the bytes. -/
theorem witness_StoreDecimalDigits :
    ({ State.reset with I := 4093 } : State).effAddr 2 ≤ 4095 ∧ 4095 < ({ State.reset with I := 4094 } : State).effAddr 2 ∧
      4095 < ({ State.reset with I := 0xFFFF } : State).effAddr 2 ∧
      ∀ k, k < 3 → 4092 ≠ ({ State.reset with I := 4093 } : State).effAddr k := by decide

/-- One byte fits at 4095 and two do not; all sixteen fit at 4080 and not at 4081. -/
theorem witness_StoreRegisters :
    ({ State.reset with I := 4095 } : State).effAddr (0 : RegIdx).toNat ≤ 4095 ∧
      4095 < ({ State.reset with I := 4095 } : State).effAddr (1 : RegIdx).toNat ∧
      ({ State.reset with I := 4080 } : State).effAddr (15 : RegIdx).toNat ≤ 4095 ∧
      4095 < ({ State.reset with I := 4081 } : State).effAddr (15 : RegIdx).toNat := by decide

/-- The same bounds; a register loaded and one that is not. -/
theorem witness_LoadRegisters :
    ({ State.reset with I := 4094 } : State).effAddr (1 : RegIdx).toNat ≤ 4095 ∧
      4095 < ({ State.reset with I := 4095 } : State).effAddr (1 : RegIdx).toNat ∧
      (1 : RegIdx).toNat ≤ (1 : RegIdx).toNat ∧ (1 : RegIdx).toNat < (2 : RegIdx).toNat := by decide

theorem witness_StoredBytesAreFetched :
    1 ≤ (1 : RegIdx).toNat ∧ ({ State.reset with I := 0x202 } : State).effAddr (1 : RegIdx).toNat ≤ 4095 ∧
      ({ State.reset with I := 0x202 } : State).I = State.reset.pc + 2 := by decide

/-- The last key, and the first value that is none. -/
theorem witness_SkipOnKey :
    ((withRegs [(1, 15)] State.reset).reg 1).toNat = (15 : Fin 16).val ∧
      15 < ((withRegs [(1, 16)] State.reset).reg 1).toNat := by decide

theorem witness_WaitForKey_none : ∀ k, isPressed k State.reset = false := by decide

theorem witness_WaitForKey_lowest :
    isPressed 3 (setPressed 3 true (setPressed 9 true State.reset)) = true ∧
      ∀ j : Fin 16, j < 3 → isPressed j (setPressed 3 true (setPressed 9 true State.reset)) = false := by decide

theorem witness_OnlyDestinationRegistersChange :
    exec (.addVxVy 1 2) State.reset = .next ((State.reset.advance.setReg 1 0).setReg 15 0) ∧
      (2 : RegIdx) ∉ writtenRegs (.addVxVy 1 2) := ⟨rfl, by decide⟩

theorem witness_OnlyStoredBytesChange :
    after (fun t => t.pc) { launch 0xF033 with I := 0x300 } = some 0x202 ∧
      (∀ k, k < storedBytes (.ldBVx 0) → 0x303 ≠ ({ launch 0xF033 with I := 0x300 } : State).effAddr k) ∧
      ∀ k, k < storedBytes (.ldMemVx 15) → 0x2FF ≠ ({ launch 0xF033 with I := 0x300 } : State).effAddr k := by decide

/-- 6A05 meets every clause's premises at once. -/
theorem witness_OnlyNamedStateChanges :
    exec (.ldVxNn 10 5) State.reset = .next (State.reset.advance.setReg 10 5) ∧
      (∀ a, Instr.ldVxNn 10 5 ≠ .ldINnn a) ∧ (∀ x, Instr.ldVxNn 10 5 ≠ .addIVx x) ∧
      (∀ x, Instr.ldVxNn 10 5 ≠ .ldFVx x) ∧ (∀ x, Instr.ldVxNn 10 5 ≠ .ldDtVx x) ∧
      (∀ x, Instr.ldVxNn 10 5 ≠ .ldStVx x) ∧ (∀ x, Instr.ldVxNn 10 5 ≠ .ldVxK x) ∧ Instr.ldVxNn 10 5 ≠ .cls ∧
      (∀ x y n, Instr.ldVxNn 10 5 ≠ .drw x y n) ∧ Instr.ldVxNn 10 5 ≠ .ret ∧
      (∀ a, Instr.ldVxNn 10 5 ≠ .call a) ∧ ∀ x nn, Instr.ldVxNn 10 5 ≠ .rnd x nn := by
  refine ⟨rfl, ?_⟩
  simp

theorem witness_SoundTimerAndRedrawFlagAreNotRead : exec (.ldStVx 3) State.reset =
    .next (State.reset.advance.setST 0) := rfl

theorem witness_ParametersNeverChange : step State.reset = .next State.reset := rfl

/-- All three invariants, at a launch state whose step stores to memory. -/
theorem witness_EveryStepKeepsMemoryCanonical :
    ({ withRegs [(0, 157)] (launch 0xF033) with I := 0x300 } : State).MemCanonical ∧
      after (fun t => t.mem.length) { withRegs [(0, 157)] (launch 0xF033) with I := 0x300 } = some 5 := by decide

/-- A core that has faulted and is Halted. -/
theorem witness_EveryStepKeepsFaultedCoreHalted :
    (State.reset.afterFault .stackUnderflow (some 0x200) (some 0x00EE)).FaultHalts ∧
      (State.reset.afterFault .stackUnderflow (some 0x200) (some 0x00EE)).fault ≠ none := by decide

/-- pc at its bound, and a stack whose one entry is at its bound. -/
theorem witness_EveryStepKeepsPcBounded :
    ({ launch 0x1200 with pc := 0x10FE, sp := 1, stack := State.reset.stack.set 0 4096 } : State).PcBounded := by decide

end Sys2Proof.Tests
end

/-! # Scope: what an instruction may change, and that every step answers a next state (rules R6, R9, R10) -/

namespace Sys2Proof.Machine

/-! ## The operations that may raise a fault, read backwards: what a completed one has done -/

/-- A completed push had room, and wrote the entry at the old depth and the depth (R24, R113). -/
theorem State.push_cases {s u : State} {w : Word} (h : s.push w = .ok u) :
    ∃ hd : s.sp.val < 16,
      u = { s with stack := s.stack.set s.sp.val w, sp := ⟨s.sp.val + 1, Nat.succ_lt_succ hd⟩ } := by
  by_cases hd : s.sp.val < 16
  · rw [State.push_ok s w hd] at h
    exact ⟨hd, (Except.ok.inj h).symm⟩
  · rw [State.push_error s w hd] at h
    cases h

/-- A completed pop had an entry to take, and changed the depth only (R24, R111). -/
theorem State.pop_cases {s u : State} {w : Word} (h : s.pop = .ok (w, u)) :
    ∃ hd : 0 < s.sp.val, w = s.stack[s.sp.val - 1] ∧
      u = { s with sp := ⟨s.sp.val - 1, Nat.lt_of_le_of_lt (Nat.sub_le _ _) s.sp.isLt⟩ } := by
  by_cases hd : 0 < s.sp.val
  · obtain ⟨_, hp⟩ := State.pop_ok s hd
    rw [hp] at h
    cases h
    exact ⟨hd, rfl, rfl⟩
  · rw [State.pop_error s hd] at h
    cases h

/-- Completed stores have written the bytes one after another, and changed memory only (R155, R156). -/
theorem State.storeBytes_cases {s u : State} {a : Nat} {bs : List Byte} (h : s.storeBytes a bs = .ok u) :
    u = { s with mem := Memory.writeList s.config s.mem a bs } := by
  by_cases ha : a + bs.length ≤ 4096
  · rw [State.storeBytes_ok s bs ha] at h
    exact (Except.ok.inj h).symm
  · rcases eq_or_ne bs [] with rfl | hne
    · exact (Except.ok.inj h).symm
    · rw [State.storeBytes_error s bs (by omega) hne] at h
      cases h

/-- Completed stores leave every byte outside their addresses as it was (R158). -/
theorem State.byteAt_storeBytes_of_outside {s u : State} {a b : Nat} {bs : List Byte} (h : s.storeBytes a bs = .ok u)
    (hb : ∀ k, k < bs.length → b ≠ a + k) : u.byteAt b = s.byteAt b := by
  rw [State.storeBytes_cases h, State.byteAt_writeList]
  split
  · have hlen : bs.length ≤ b - a := by
      by_contra hlt
      exact hb (b - a) (by omega) (by omega)
    rw [List.getElem?_eq_none hlen, Option.getD_none]
  · rfl

/-- Completed loads have changed V only, and in V the registers named only (R157). -/
theorem State.loadRegs_cases {s u : State} {a : Nat} {ks : List RegIdx} (h : s.loadRegs a ks = .ok u) :
    (∃ V, u = { s with V := V }) ∧ ∀ z, z ∉ ks → u.reg z = s.reg z := by
  by_cases ha : a + ks.length ≤ 4096
  · obtain ⟨t, ht, hV, hz, -⟩ := State.loadRegs_ok s ks ha
    cases ht.symm.trans h
    exact ⟨⟨u.V, hV⟩, hz⟩
  · rcases eq_or_ne ks [] with rfl | hne
    · cases h
      exact ⟨⟨s.V, rfl⟩, fun _ _ => rfl⟩
    · rw [State.loadRegs_error s ks (by omega) hne] at h
      cases h

/-- A completed key skip read a key that exists, and is a skip on its flag (R171, R172). -/
theorem State.skipOnKey_cases {s u : State} {v : Byte} {b : Bool} (h : s.skipOnKey v b = .ok u) :
    ∃ k, keyOfValue v = some k ∧ u = s.skipIf (s.keys[k] == b) := by
  unfold State.skipOnKey at h
  split at h
  · next k hk => exact ⟨k, hk, (Except.ok.inj h).symm⟩
  · cases h

/-- A wait for a key rewinds pc, or takes the key found into Vx and clears its flag (R174). -/
theorem State.waitKey_cases (s : State) (x : RegIdx) :
    (s.firstKey = none ∧ s.waitKey x = s.setPc (s.pc - 2)) ∨
      ∃ k, s.firstKey = some k ∧ s.waitKey x = (s.setReg x (BitVec.ofNat 8 k.val)).setKey k false := by
  unfold State.waitKey
  split
  · next hk => exact .inl ⟨hk, rfl⟩
  · next k hk => exact .inr ⟨k, hk, rfl⟩

/-! The second halves of the shifts and subtractions are register writes (R139 to R142). -/

@[simp] theorem State.subInto_eq (s : State) (x y : RegIdx) : s.subInto x y = s.setReg x (s.reg x - s.reg y) := rfl
@[simp] theorem State.shrInto_eq (s : State) (x : RegIdx) : s.shrInto x = s.setReg x (s.reg x >>> 1) := rfl
@[simp] theorem State.subnInto_eq (s : State) (x y : RegIdx) : s.subnInto x y = s.setReg x (s.reg y - s.reg x) := rfl
@[simp] theorem State.shlInto_eq (s : State) (x : RegIdx) : s.shlInto x = s.setReg x (s.reg x <<< 1) := rfl

/-! ## The frame of an instruction -/

/-- What instruction `i` leaves as it was when it takes `s` to `t`: the registers that are not its destinations, the
bytes it does not store to, and each other field unless `i` is one of the instructions that the rules name for it (R10,
R158). A clause whose proof is left out is one that the simp lemmas of Laws/State.lean read off the state `t`. -/
structure ExecFrame (i : Instr) (s t : State) : Prop where
  reg : ∀ z, z ∉ writtenRegs i → t.reg z = s.reg z := by
    simp +contextual [writtenRegs, State.reg_setReg]
  byteAt : ∀ a, (∀ k, k < storedBytes i → a ≠ s.effAddr k) → t.byteAt a = s.byteAt a := by
    intros; rfl
  I : (∀ a, i ≠ .ldINnn a) → (∀ x, i ≠ .addIVx x) → (∀ x, i ≠ .ldFVx x) → t.I = s.I := by simp
  DT : (∀ x, i ≠ .ldDtVx x) → t.DT = s.DT := by simp
  ST : (∀ x, i ≠ .ldStVx x) → t.ST = s.ST := by simp
  keys : (∀ x, i ≠ .ldVxK x) → t.keys = s.keys := by simp
  fb : i ≠ .cls → (∀ x y n, i ≠ .drw x y n) → t.fb = s.fb := by simp
  draw : i ≠ .cls → (∀ x y n, i ≠ .drw x y n) → i ≠ .ret → t.draw = s.draw := by simp
  stack : (∀ a, i ≠ .call a) → t.stack = s.stack := by simp
  sp : (∀ a, i ≠ .call a) → i ≠ .ret → t.sp = s.sp := by simp
  draws : (∀ x nn, i ≠ .rnd x nn) → t.draws = s.draws := by simp
  config : t.config = s.config := by simp
  schedule : t.schedule = s.schedule := by simp

/-- A fault discards what the execute phase wrote (R203): a cycle that may raise keeps its frame when its execute phase
does. -/
theorem ExecFrame.of_finish {i : Instr} {s t : State} {op : Word} {r : Except Cause State} (h : s.finish op r = .next t)
    (hr : ∀ u, r = .ok u → ExecFrame i s u) : ExecFrame i s t := by
  rcases State.finish_cases h with hok | ⟨c, -, rfl⟩
  · exact hr t hok
  · exact { reg := fun _ _ => rfl }

theorem execRet_frame {s t : State} (h : execRet s = .next t) : ExecFrame .ret s t := by
  refine ExecFrame.of_finish h fun u hu => ?_
  split at hu
  · next w v hpop =>
    obtain ⟨_, -, rfl⟩ := State.pop_cases hpop
    cases hu
    exact { reg := fun _ _ => rfl }
  · cases hu

theorem execCall_frame {nnn : Addr} {s t : State} (h : execCall nnn s = .next t) : ExecFrame (.call nnn) s t := by
  refine ExecFrame.of_finish h fun u hu => ?_
  split at hu
  · next v hpush =>
    obtain ⟨_, rfl⟩ := State.push_cases hpush
    cases hu
    exact { reg := fun _ _ => rfl }
  · cases hu

theorem execDrw_frame {x y : RegIdx} {n : Nibble} {s t : State} (h : execDrw x y n s = .next t) :
    ExecFrame (.drw x y n) s t := by
  refine ExecFrame.of_finish h fun u hu => ?_
  split at hu
  · cases hu
    exact {}
  · cases hu

/-- Ex9E and ExA1 differ in the flag value they skip on alone. -/
theorem State.skipOnKey_frame {x : RegIdx} {s u : State} {b : Bool} (h : s.advance.skipOnKey (s.reg x) b = .ok u) :
    ExecFrame (.skp x) s u ∧ ExecFrame (.sknp x) s u := by
  obtain ⟨k, -, rfl⟩ := State.skipOnKey_cases h
  rw [State.skipIf_eq]
  exact ⟨{}, {}⟩

theorem State.waitKey_frame (x : RegIdx) (s : State) : ExecFrame (.ldVxK x) s (s.advance.waitKey x) := by
  rcases State.waitKey_cases s.advance x with ⟨-, hw⟩ | ⟨k, -, hw⟩
  all_goals
    rw [hw]
    exact {}

/-- Stores from I upward keep the frame of an instruction that stores that many bytes. -/
theorem State.storeBytes_frame {i : Instr} {s u : State} {bs : List Byte}
    (h : s.advance.storeBytes (s.effAddr 0) bs = .ok u) (hlen : storedBytes i = bs.length) : ExecFrame i s u := by
  have hbyte : ∀ a, (∀ k, k < storedBytes i → a ≠ s.effAddr k) → u.byteAt a = s.byteAt a := fun a ha =>
    (State.byteAt_storeBytes_of_outside h fun k hk => ha k (hlen ▸ hk)).trans (State.byteAt_advance s a)
  have hu := State.storeBytes_cases h
  subst hu
  exact { reg := fun _ _ => rfl, byteAt := hbyte }

theorem execLdVxMem_frame {x : RegIdx} {s t : State} (h : execLdVxMem x s = .next t) : ExecFrame (.ldVxMem x) s t := by
  refine ExecFrame.of_finish h fun u hu => ?_
  obtain ⟨⟨V, rfl⟩, hreg⟩ := State.loadRegs_cases hu
  exact { reg := hreg }

/-- Every instruction keeps its frame, whether it completes or faults. -/
theorem exec_frame {i : Instr} {s t : State} (h : exec i s = .next t) : ExecFrame i s t := by
  cases i
  case ret => exact execRet_frame h
  case call nnn => exact execCall_frame h
  case drw x y n => exact execDrw_frame h
  case skp x => exact ExecFrame.of_finish h fun u hu => (State.skipOnKey_frame hu).1
  case sknp x => exact ExecFrame.of_finish h fun u hu => (State.skipOnKey_frame hu).2
  case ldBVx x => exact ExecFrame.of_finish h fun u hu => State.storeBytes_frame hu rfl
  case ldMemVx x => exact ExecFrame.of_finish h fun u hu => State.storeBytes_frame hu (by simp [storedBytes])
  case ldVxMem x => exact execLdVxMem_frame h
  case ldVxK x => cases h; exact State.waitKey_frame x s
  case seVxNn | sneVxNn | seVxVy | sneVxVy =>
    cases h
    rw [State.skipIf_eq]
    exact {}
  case rnd x nn =>
    cases h
    rw [State.drawByte_state]
    exact { reg := fun z hz => State.reg_setReg_ne _ (List.mem_singleton.not.mp hz) _ }
  -- Every other instruction completes, in a state made by the named writes of the registers and fields.
  all_goals
    cases h
    exact {}

/-! ## Every step answers a next state -/

theorem State.finish_next (s : State) (op : Word) (r : Except Cause State) : ∃ t, s.finish op r = .next t := by
  cases r <;> exact ⟨_, rfl⟩

/-- Every instruction answers a next state: no arm refuses and a fault is taken (R203). -/
theorem exec_next (i : Instr) (s : State) : ∃ t, exec i s = .next t := by
  cases i
  case ret | call | drw | skp | sknp | ldBVx | ldMemVx | ldVxMem => exact State.finish_next s _ _
  all_goals exact ⟨_, rfl⟩

theorem runWord_next (w : Word) (s : State) : ∃ t, runWord w s = .next t := by
  unfold runWord
  split
  · exact exec_next _ s
  · exact ⟨_, rfl⟩

theorem cycle_next (s : State) : ∃ t, cycle s = .next t := by
  unfold cycle
  split
  · exact ⟨_, rfl⟩
  · split
    · exact runWord_next _ s
    · exact ⟨_, rfl⟩

theorem perform_next (m : Move) (s : State) : ∃ t, perform m s = .next t := by
  cases m
  case cycle => exact cycle_next s
  all_goals exact ⟨_, rfl⟩

/-! ## What a cycle can do -/

/-- A cycle of a Halted core does nothing; of a Running core it runs the instruction fetched, handles an unknown word,
or takes the fault of the fetch (R40). -/
theorem cycle_cases {s t : State} (h : cycle s = .next t) :
    (s.run = .halted ∧ t = s) ∨
    (s.run = .running ∧ ∃ w i, s.fetch = .ok w ∧ decode w = .ok i ∧ exec i s = .next t) ∨
    (s.run = .running ∧ ∃ w e, s.fetch = .ok w ∧ decode w = .error e ∧ t = unknownOpcode w s) ∨
    (s.run = .running ∧ ∃ c, s.fetch = .error c ∧ t = s.takeFault c (some s.pc) none) := by
  unfold cycle runWord at h
  split at h
  · next hr =>
    cases h
    exact .inl ⟨hr, rfl⟩
  · next hr =>
    split at h
    · next w hw =>
      split at h
      · next i hi => exact .inr (.inl ⟨hr, w, i, hw, hi, h⟩)
      · next e he =>
        cases h
        exact .inr (.inr (.inl ⟨hr, w, e, hw, he, rfl⟩))
    · next c hc =>
      cases h
      exact .inr (.inr (.inr ⟨hr, c, hc, rfl⟩))

/-! ## The parameters stay -/

@[simp] theorem unknownOpcode_config (w : Word) (s : State) : (unknownOpcode w s).config = s.config := by
  unfold unknownOpcode
  split <;> rfl

@[simp] theorem State.tickDelay_config (s : State) : s.tickDelay.config = s.config := by
  unfold State.tickDelay
  split <;> rfl

@[simp] theorem State.tickSound_config (s : State) : s.tickSound.config = s.config := by
  unfold State.tickSound
  split
  · rfl
  · split <;> rfl

@[simp] theorem timerTick_config (s : State) : (timerTick s).config = s.config := by
  unfold timerTick
  split
  · rfl
  · rw [State.tickSound_config, State.tickDelay_config]

@[simp] theorem loadProgram_config (bytes : List Byte) (s : State) : (loadProgram bytes s).config = s.config := by
  unfold loadProgram
  split <;> rfl

@[simp] theorem nextMove_config (s : State) : (nextMove s).2.config = s.config := by
  unfold nextMove
  split <;> rfl

theorem cycle_config {s t : State} (h : cycle s = .next t) : t.config = s.config := by
  obtain ⟨-, rfl⟩ | ⟨-, w, i, -, -, hexec⟩ | ⟨-, w, e, -, -, rfl⟩ | ⟨-, c, -, rfl⟩ := cycle_cases h
  · rfl
  · exact (exec_frame hexec).config
  · exact unknownOpcode_config w s
  · exact State.takeFault_config s c _ _

theorem perform_config {m : Move} {s t : State} (h : perform m s = .next t) : t.config = s.config := by
  cases m
  case cycle => exact cycle_config h
  case timerTick => cases h; exact timerTick_config s
  case loadProgram bytes => cases h; exact loadProgram_config bytes s
  case setPressed | readFrame | clearDrawFlag | hardReset | softReset => cases h; rfl

end Sys2Proof.Machine

section
open Sys2Proof.Machine

/-- Settles O53: the register clause of the frame that every instruction keeps. -/
theorem onlyDestinationRegistersChange : Obligations.OnlyDestinationRegistersChange :=
  fun _ _ _ h => (exec_frame h).reg

/-- Settles O54: the memory clause of the frame that every instruction keeps. -/
theorem onlyStoredBytesChange : Obligations.OnlyStoredBytesChange :=
  fun _ _ _ h => (exec_frame h).byteAt

/-- Settles O55: the other clauses of the frame that every instruction keeps. -/
theorem onlyNamedStateChanges : Obligations.OnlyNamedStateChanges := by
  intro i s t h
  have hf := exec_frame h
  exact ⟨hf.I, hf.DT, hf.ST, hf.keys, fun hcls hdrw => ⟨hf.fb hcls hdrw, hf.draw hcls hdrw⟩,
    fun hcall => ⟨hf.stack hcall, hf.sp hcall⟩, hf.draws, hf.config, hf.schedule⟩

/-- Settles O57, by cases on the move of the step; an instruction keeps the parameters by its frame. -/
theorem parametersNeverChange : Obligations.ParametersNeverChange :=
  fun s _ h => (perform_config h).trans (nextMove_config s)

/-- Settles O13: every move answers a next state, a cycle's fault included. -/
theorem everyStepAnswersANextState : Obligations.EveryStepAnswersANextState :=
  fun s => perform_next (nextMove s).1 (nextMove s).2

end

/-! # The machine's step: whose move it is, the bounds of pc and of the stack, and what no instruction reads
(rules R23, R25, R29, R38 to R45, R111) -/

namespace Sys2Proof.Machine

/-! ## A step is the move at the head of the schedule -/

theorem step_of_schedule_nil {s : State} (h : s.schedule = []) : step s = cycle s := by
  simp only [step, nextMove, h, perform]

theorem step_of_schedule_cons {s : State} {m : Move} {ms : List Move} (h : s.schedule = m :: ms) :
    step s = perform m { s with schedule := ms } := by
  simp only [step, nextMove, h]

/-- The step of a state is a move's operation on a state that differs in its schedule at most (R38). -/
theorem step_cases {s t : State} (h : step s = .next t) :
    ∃ m ms, perform m { s with schedule := ms } = .next t := by
  cases hsch : s.schedule with
  | nil => exact ⟨.cycle, [], by rw [← hsch]; exact (step_of_schedule_nil hsch).symm.trans h⟩
  | cons m ms => exact ⟨m, ms, (step_of_schedule_cons hsch).symm.trans h⟩

/-! ## What a cycle and a tick do in each run state -/

theorem cycle_of_halted {s : State} (h : s.run = .halted) : cycle s = .next s := by
  simp only [cycle, h]

theorem cycle_of_decode {s : State} {w : Word} {i : Instr} (hrun : s.run = .running) (hfetch : s.fetch = .ok w)
    (hdec : decode w = .ok i) : cycle s = exec i s := by
  simp only [cycle, hrun, hfetch, runWord, hdec]

theorem timerTick_of_halted {s : State} (h : s.run = .halted) : timerTick s = s := by
  simp only [timerTick, h]

/-! ## Where pc can be after a cycle (R23, R110 to R118) -/

/-- The values that a cycle from `s` can leave in pc. -/
inductive PcAfter (s : State) : Word → Prop where
  /-- A fault, a wait for a key, and a Halted core's cycle leave pc where it was. -/
  | stay : PcAfter s s.pc
  | next : PcAfter s (s.pc + 2)
  | skip : PcAfter s (s.pc + 2 + 2)
  | jump (nnn : Addr) : PcAfter s (addrWord nnn)
  | jumpOffset (nnn : Addr) (v : Byte) : PcAfter s (addrWord nnn + byteWord v)
  | popped (h : 0 < s.sp.val) : PcAfter s s.stack[s.sp.val - 1]

theorem PcAfter.of_skipIf (s : State) (c : Bool) : PcAfter s (s.advance.skipIf c).pc := by
  cases c
  · exact .next
  · exact .skip

/-- A fault leaves pc where it was, so a cycle that may raise need only be looked at where it completes. -/
theorem PcAfter.of_finish {s t : State} {op : Word} {r : Except Cause State} (h : s.finish op r = .next t)
    (hr : ∀ u, r = .ok u → PcAfter s u.pc) : PcAfter s t.pc := by
  rcases State.finish_cases h with hok | ⟨c, -, rfl⟩
  · exact hr t hok
  · exact .stay

theorem execRet_pc {s t : State} (h : execRet s = .next t) : PcAfter s t.pc := by
  refine PcAfter.of_finish h fun u hu => ?_
  split at hu
  · next w v hpop =>
    obtain ⟨hd, rfl, -⟩ := State.pop_cases hpop
    cases hu
    exact .popped (s := s) hd
  · cases hu

theorem execCall_pc {nnn : Addr} {s t : State} (h : execCall nnn s = .next t) : PcAfter s t.pc := by
  refine PcAfter.of_finish h fun u hu => ?_
  split at hu
  · cases hu
    exact .jump nnn
  · cases hu

theorem execDrw_pc {x y : RegIdx} {n : Nibble} {s t : State} (h : execDrw x y n s = .next t) : PcAfter s t.pc := by
  refine PcAfter.of_finish h fun u hu => ?_
  split at hu
  · cases hu
    exact .next
  · cases hu

theorem State.skipOnKey_pc {s u : State} {v : Byte} {b : Bool} (h : s.advance.skipOnKey v b = .ok u) :
    PcAfter s u.pc := by
  obtain ⟨k, -, rfl⟩ := State.skipOnKey_cases h
  exact .of_skipIf s _

theorem State.storeBytes_pc {s u : State} {a : Nat} {bs : List Byte} (h : s.advance.storeBytes a bs = .ok u) :
    PcAfter s u.pc := by
  rw [State.storeBytes_cases h]
  exact .next

theorem State.loadRegs_pc {s u : State} {a : Nat} {ks : List RegIdx} (h : s.advance.loadRegs a ks = .ok u) :
    PcAfter s u.pc := by
  obtain ⟨⟨V, rfl⟩, -⟩ := State.loadRegs_cases h
  exact .next

/-- The wait's rewind undoes the advance exactly (R174). -/
theorem State.waitKey_pc (s : State) (x : RegIdx) : PcAfter s (s.advance.waitKey x).pc := by
  rcases State.waitKey_cases s.advance x with ⟨-, hw⟩ | ⟨k, -, hw⟩ <;> rw [hw]
  · rw [State.setPc_pc, State.advance_pc, BitVec.add_sub_cancel]
    exact .stay
  · exact .next

theorem exec_pc {i : Instr} {s t : State} (h : exec i s = .next t) : PcAfter s t.pc := by
  cases i
  case ret => exact execRet_pc h
  case call nnn => exact execCall_pc h
  case drw x y n => exact execDrw_pc h
  case skp | sknp => exact PcAfter.of_finish h fun _ => State.skipOnKey_pc
  case ldBVx | ldMemVx => exact PcAfter.of_finish h fun _ => State.storeBytes_pc
  case ldVxMem => exact PcAfter.of_finish h fun _ => State.loadRegs_pc
  case ldVxK x => cases h; exact State.waitKey_pc s x
  case jp nnn => cases h; exact .jump nnn
  case jpV0 nnn => cases h; exact .jumpOffset nnn _
  case seVxNn | sneVxNn | seVxVy | sneVxVy => cases h; exact .of_skipIf s _
  -- Every other instruction writes pc in the fetch phase alone.
  all_goals
    cases h
    exact .next

theorem unknownOpcode_pc (w : Word) (s : State) : PcAfter s (unknownOpcode w s).pc := by
  unfold unknownOpcode
  split
  · exact .stay
  · exact .next

/-! ## The stack after a cycle (R24, R111, R113) -/

/-- An instruction pushes pc + 2, or it writes no entry and saves none anew. -/
theorem exec_stack_cases {i : Instr} {s t : State} (h : exec i s = .next t) :
    (t.stack = s.stack ∧ t.sp.val ≤ s.sp.val) ∨
      ∃ hd : s.sp.val < 16, t.stack = s.stack.set s.sp.val (s.pc + 2) ∧ t.sp.val = s.sp.val + 1 := by
  cases i
  case call nnn =>
    rcases State.finish_cases h with hok | ⟨c, -, rfl⟩
    · split at hok
      · next u hpush =>
        obtain ⟨hd, rfl⟩ := State.push_cases hpush
        cases hok
        exact .inr ⟨hd, rfl, rfl⟩
      · cases hok
    · exact .inl ⟨rfl, le_rfl⟩
  case ret =>
    rcases State.finish_cases h with hok | ⟨c, -, rfl⟩
    · split at hok
      · next w u hpop =>
        obtain ⟨-, -, rfl⟩ := State.pop_cases hpop
        cases hok
        exact .inl ⟨rfl, Nat.sub_le _ _⟩
      · cases hok
    · exact .inl ⟨rfl, le_rfl⟩
  -- Every other instruction keeps the stack by its frame.
  all_goals
    have hf := exec_frame h
    exact .inl ⟨hf.stack nofun, (congrArg Fin.val (hf.sp nofun nofun)).le⟩

/-! ## The bounds on pc and the saved return addresses (R23, R111) -/

theorem toNat_addrWord (nnn : Addr) : (addrWord nnn).toNat = nnn.toNat := by
  have := nnn.isLt
  simp only [addrWord, BitVec.toNat_setWidth]
  omega

theorem toNat_byteWord (v : Byte) : (byteWord v).toNat = v.toNat := by
  have := v.isLt
  simp only [byteWord, BitVec.toNat_setWidth]
  omega

/-- Where a fetch succeeds pc is at most 4094, so 0x10FE, that is 0xFFF + 0xFF, is reached by Bnnn alone. -/
theorem PcAfter.toNat_le {s : State} {w : Word} (h : PcAfter s w) (hs : s.PcBounded) (hpc : s.pc.toNat ≤ 4094) :
    w.toNat ≤ 0x10FE := by
  cases h with
  | stay => exact hs.1
  | next | skip => bv_omega
  | jump nnn =>
    rw [toNat_addrWord]
    omega
  | jumpOffset nnn v =>
    rw [BitVec.toNat_add, toNat_addrWord, toNat_byteWord]
    omega
  | popped hd =>
    have : (s.stack[s.sp.val - 1]).toNat ≤ 4096 := hs.2 ⟨s.sp.val - 1, by omega⟩ (Nat.sub_lt hd Nat.one_pos)
    omega

/-- The state after an instruction meets the bounds: a push saves pc + 2, at most 4096 where the fetch succeeded. -/
theorem exec_pcBounded {i : Instr} {s t : State} (h : exec i s = .next t) (hs : s.PcBounded)
    (hpc : s.pc.toNat ≤ 4094) : t.PcBounded := by
  refine ⟨(exec_pc h).toNat_le hs hpc, fun k hk => ?_⟩
  show (t.stack[k.val]).toNat ≤ 4096
  rcases exec_stack_cases h with ⟨hstack, hsp⟩ | ⟨hd, hstack, hsp⟩
  · simp only [hstack]
    exact hs.2 k (by omega)
  · simp only [hstack, Vector.getElem_set]
    split
    · bv_omega
    · exact hs.2 k (by omega)

/-- A change of pc alone, among pc and the stack, keeps the bounds when the new pc meets its own. -/
theorem State.PcBounded.of_stack_eq {s t : State} (hs : s.PcBounded) (hpc : t.pc.toNat ≤ 0x10FE)
    (hstack : t.stack = s.stack) (hsp : t.sp = s.sp) : t.PcBounded := by
  refine ⟨hpc, fun k hk => ?_⟩
  rw [hstack]
  exact hs.2 k (hsp ▸ hk)

theorem unknownOpcode_stack (w : Word) (s : State) :
    (unknownOpcode w s).stack = s.stack ∧ (unknownOpcode w s).sp = s.sp := by
  unfold unknownOpcode
  split <;> exact ⟨rfl, rfl⟩

theorem cycle_pcBounded {s t : State} (h : cycle s = .next t) (hs : s.PcBounded) : t.PcBounded := by
  obtain ⟨-, rfl⟩ | ⟨-, w, i, hfetch, -, hexec⟩ | ⟨-, w, e, hfetch, -, rfl⟩ | ⟨-, c, -, rfl⟩ := cycle_cases h
  · exact hs
  · exact exec_pcBounded hexec hs (State.pc_le_of_fetch hfetch)
  · obtain ⟨hstack, hsp⟩ := unknownOpcode_stack w s
    exact hs.of_stack_eq ((unknownOpcode_pc w s).toNat_le hs (State.pc_le_of_fetch hfetch)) hstack hsp
  · exact hs

theorem State.tickDelay_eq (s : State) : ∃ dt, s.tickDelay = { s with DT := dt } := by
  unfold State.tickDelay
  split <;> exact ⟨_, rfl⟩

theorem State.tickSound_eq (s : State) : ∃ st os, s.tickSound = { s with ST := st, outputs := os } := by
  unfold State.tickSound
  split
  · exact ⟨_, _, rfl⟩
  · split <;> exact ⟨_, _, rfl⟩

/-- A tick writes the timers and the trace alone (R210). -/
theorem timerTick_eq (s : State) : ∃ dt st os, timerTick s = { s with DT := dt, ST := st, outputs := os } := by
  unfold timerTick
  split
  · exact ⟨_, _, _, rfl⟩
  · obtain ⟨dt, hdelay⟩ := State.tickDelay_eq s
    obtain ⟨st, os, hsound⟩ := State.tickSound_eq s.tickDelay
    exact ⟨dt, st, os, by rw [hsound, hdelay]⟩

/-- A reset puts pc at 0x200 and empties the stack (R241, R242). -/
theorem softReset_pcBounded (s : State) : (softReset s).PcBounded :=
  ⟨by simp [softReset], fun _ hk => absurd hk (Nat.not_lt_zero _)⟩

/-- A load takes its fault, which writes neither pc nor the stack, or resets both (R243). -/
theorem loadProgram_pcBounded {s : State} (bytes : List Byte) (hs : s.PcBounded) : (loadProgram bytes s).PcBounded := by
  unfold loadProgram
  split
  · exact hs
  · exact softReset_pcBounded s

theorem perform_pcBounded {m : Move} {s t : State} (h : perform m s = .next t) (hs : s.PcBounded) : t.PcBounded := by
  cases m
  case cycle => exact cycle_pcBounded h hs
  case timerTick =>
    cases h
    obtain ⟨dt, st, os, htick⟩ := timerTick_eq s
    rw [htick]
    exact hs
  case loadProgram bytes => cases h; exact loadProgram_pcBounded bytes hs
  case hardReset | softReset => cases h; exact softReset_pcBounded s
  case setPressed | readFrame | clearDrawFlag => cases h; exact hs

/-! ## The sound timer and the redraw flag are not read (R25, R29) -/

/-- `s` with other values of the redraw flag and the sound timer. -/
def State.withDrawST (s : State) (b : Bool) (v : Byte) : State := { s with draw := b, ST := v }

/-! Each operation that may raise does the same whatever the two are, and passes them on. -/

section
variable (s : State) (b : Bool) (v : Byte)

@[simp] theorem State.withDrawST_pc : (s.withDrawST b v).pc = s.pc := rfl
@[simp] theorem State.withDrawST_reg (z : RegIdx) : (s.withDrawST b v).reg z = s.reg z := rfl
@[simp] theorem State.withDrawST_advance : (s.withDrawST b v).advance = s.advance.withDrawST b v := rfl

theorem State.push_withDrawST (w : Word) : (s.withDrawST b v).push w = (s.push w).map (·.withDrawST b v) := by
  by_cases hd : s.sp.val < 16
  · rw [State.push_ok s w hd, State.push_ok (s.withDrawST b v) w hd]
    rfl
  · rw [State.push_error s w hd, State.push_error (s.withDrawST b v) w hd]
    rfl

theorem State.pop_withDrawST : (s.withDrawST b v).pop = s.pop.map fun p => (p.1, p.2.withDrawST b v) := by
  by_cases hd : 0 < s.sp.val
  · obtain ⟨_, hp⟩ := State.pop_ok s hd
    obtain ⟨_, hp'⟩ := State.pop_ok (s.withDrawST b v) hd
    rw [hp, hp']
    rfl
  · rw [State.pop_error s hd, State.pop_error (s.withDrawST b v) hd]
    rfl

theorem State.storeBytes_withDrawST (a : Nat) (bs : List Byte) :
    (s.withDrawST b v).storeBytes a bs = (s.storeBytes a bs).map (·.withDrawST b v) := by
  induction bs generalizing s a with
  | nil => rfl
  | cons c cs ih =>
    rw [State.storeBytes, State.storeBytes]
    by_cases ha : a ≤ 4095
    · rw [State.memWrite_ok s ha, State.memWrite_ok (s.withDrawST b v) ha]
      exact ih { s with mem := Memory.write s.config s.mem a c } (a + 1)
    · rw [State.memWrite_error s ha, State.memWrite_error (s.withDrawST b v) ha]
      rfl

theorem State.loadRegs_withDrawST (a : Nat) (ks : List RegIdx) :
    (s.withDrawST b v).loadRegs a ks = (s.loadRegs a ks).map (·.withDrawST b v) := by
  induction ks generalizing s a with
  | nil => rfl
  | cons k ks ih =>
    rw [State.loadRegs, State.loadRegs]
    by_cases ha : a ≤ 4095
    · rw [State.memRead_ok s ha, State.memRead_ok (s.withDrawST b v) ha]
      exact ih (s.setReg k (s.byteAt a)) (a + 1)
    · rw [State.memRead_error s ha, State.memRead_error (s.withDrawST b v) ha]
      rfl

theorem State.skipIf_withDrawST (c : Bool) : (s.withDrawST b v).skipIf c = (s.skipIf c).withDrawST b v := by
  cases c <;> rfl

theorem State.skipOnKey_withDrawST (x : Byte) (p : Bool) :
    (s.withDrawST b v).skipOnKey x p = (s.skipOnKey x p).map (·.withDrawST b v) := by
  unfold State.skipOnKey
  split
  · exact congrArg _ (State.skipIf_withDrawST s b v _)
  · rfl

theorem State.waitKey_withDrawST (x : RegIdx) : (s.withDrawST b v).waitKey x = (s.waitKey x).withDrawST b v := by
  rcases State.waitKey_cases s x with ⟨hk, hw⟩ | ⟨k, hk, hw⟩
  all_goals
    have hk' : (s.withDrawST b v).firstKey = _ := hk
    rw [hw, State.waitKey, hk']
    rfl

theorem State.drawRows_withDrawST (vx vy : Nat) (rs : List Nat) (acc : Framebuffer × Bool) :
    (s.withDrawST b v).drawRows vx vy rs acc = s.drawRows vx vy rs acc := by
  induction rs generalizing acc with
  | nil => rfl
  | cons r rs ih =>
    simp only [State.drawRows, ih]
    rfl

theorem State.drawSprite_withDrawST (vx vy n : Nat) :
    (s.withDrawST b v).drawSprite vx vy n = s.drawSprite vx vy n :=
  State.drawRows_withDrawST s b v vx vy _ _

end

/-- The cycle that runs `i` from `s` to `t` is, with other values of the two in `s`, a cycle to `t` but for the two. -/
def IgnoresDrawST (i : Instr) (s t : State) : Prop :=
  ∀ b v, ∃ t', exec i (s.withDrawST b v) = .next t' ∧ t' = t.withDrawST t'.draw t'.ST

/-- The fault of a cycle records nothing of the two, so a cycle that may raise ignores them when its execute phase
does. -/
theorem State.finish_withDrawST {s t : State} {op : Word} {r : Except Cause State} (h : s.finish op r = .next t)
    {b b' : Bool} {v v' : Byte} {r' : Except Cause State} (hr : r' = r.map (·.withDrawST b' v')) :
    ∃ t', (s.withDrawST b v).finish op r' = .next t' ∧ t' = t.withDrawST t'.draw t'.ST := by
  subst hr
  rcases State.finish_cases h with rfl | ⟨c, rfl, rfl⟩
  · exact ⟨_, rfl, rfl⟩
  · exact ⟨_, rfl, rfl⟩

/-- 00EE writes the redraw flag, whatever it was. -/
theorem execRet_ignoresDrawST {s t : State} (h : execRet s = .next t) : IgnoresDrawST .ret s t := by
  intro b v
  refine State.finish_withDrawST h (b' := true) (v' := v) ?_
  rw [State.withDrawST_advance, State.pop_withDrawST]
  cases s.advance.pop <;> rfl

theorem execCall_ignoresDrawST {nnn : Addr} {s t : State} (h : execCall nnn s = .next t) :
    IgnoresDrawST (.call nnn) s t := by
  intro b v
  refine State.finish_withDrawST h (b' := b) (v' := v) ?_
  rw [State.withDrawST_advance, State.push_withDrawST, State.withDrawST_pc]
  cases s.advance.push s.advance.pc <;> rfl

/-- Dxyn writes the redraw flag, whatever it was. -/
theorem execDrw_ignoresDrawST {x y : RegIdx} {n : Nibble} {s t : State} (h : execDrw x y n s = .next t) :
    IgnoresDrawST (.drw x y n) s t := by
  intro b v
  refine State.finish_withDrawST h (b' := true) (v' := v) ?_
  simp only [State.drawSprite_withDrawST, State.withDrawST_reg]
  cases s.drawSprite (s.reg x).toNat (s.reg y).toNat n.toNat <;> rfl

/-- Every instruction ignores the sound timer and the redraw flag, whether it completes or faults. -/
theorem exec_ignoresDrawST {i : Instr} {s t : State} (h : exec i s = .next t) : IgnoresDrawST i s t := by
  cases i
  case ret => exact execRet_ignoresDrawST h
  case call => exact execCall_ignoresDrawST h
  case drw => exact execDrw_ignoresDrawST h
  all_goals intro b v
  case skp | sknp => exact State.finish_withDrawST h (State.skipOnKey_withDrawST s.advance b v _ _)
  case ldBVx | ldMemVx => exact State.finish_withDrawST h (State.storeBytes_withDrawST s.advance b v _ _)
  case ldVxMem => exact State.finish_withDrawST h (State.loadRegs_withDrawST s.advance b v _ _)
  case ldVxK x =>
    cases h
    exact ⟨_, congrArg Host.Outcome.next (State.waitKey_withDrawST s.advance b v x), rfl⟩
  case seVxNn | sneVxNn | seVxVy | sneVxVy =>
    cases h
    exact ⟨_, congrArg Host.Outcome.next (State.skipIf_withDrawST s.advance b v _), rfl⟩
  -- Every other instruction completes, in a state made by the named writes of the registers and fields.
  all_goals
    cases h
    exact ⟨_, rfl, rfl⟩

/-! ## Keys (R42) -/

/-- A key set is read back, and no other key changes. -/
theorem isPressed_setPressed (k j : Fin 16) (b : Bool) (s : State) :
    isPressed j (setPressed k b s) = if j = k then b else isPressed j s := State.keys_setKey s k j b

end Sys2Proof.Machine

section
open Sys2Proof Sys2Proof.Machine

/-- Settles O60: every move keeps the bounds, and the schedule has no part in them. -/
theorem everyStepKeepsPcBounded : Obligations.EveryStepKeepsPcBounded := by
  intro s t hs h
  obtain ⟨m, ms, hperform⟩ := step_cases h
  exact perform_pcBounded hperform hs

/-- Settles O56: every instruction ignores the two, by cases on the instruction. -/
theorem soundTimerAndRedrawFlagAreNotRead : Obligations.SoundTimerAndRedrawFlagAreNotRead :=
  fun _ _ _ b v h => exec_ignoresDrawST h b v

/-- Settles O7: the step is a cycle, and the cycle of a Running core runs what the fetched word decodes to. -/
theorem stepRunsTheDecodedInstruction : Obligations.StepRunsTheDecodedInstruction := by
  refine ⟨fun s w i hrun hsch hfetch hdec => ?_, fun s w i ms hrun hsch hfetch hdec => ?_⟩
  · exact (step_of_schedule_nil hsch).trans (cycle_of_decode hrun hfetch hdec)
  · exact (step_of_schedule_cons hsch).trans (cycle_of_decode (s := { s with schedule := ms }) hrun hfetch hdec)

/-- Settles O11: neither the cycle nor the tick of a Halted core does anything. -/
theorem haltedCoreIgnoresCycleAndTick : Obligations.HaltedCoreIgnoresCycleAndTick :=
  fun _ h => ⟨cycle_of_halted h, timerTick_of_halted h, fun hsch => (step_of_schedule_nil hsch).trans (cycle_of_halted h)⟩

/-- Settles O12: the step performs the first move of the schedule, a cycle when there is none. -/
theorem stepPerformsTheScheduledMove : Obligations.StepPerformsTheScheduledMove :=
  fun _ _ => ⟨step_of_schedule_nil, step_of_schedule_cons, step_of_schedule_cons, fun _ _ => step_of_schedule_cons,
    step_of_schedule_cons, step_of_schedule_cons, fun _ => step_of_schedule_cons, step_of_schedule_cons,
    step_of_schedule_cons⟩

/-- Settles O23: a key's write is read at that key alone, and the redraw flag's write is an update of that field. -/
theorem keyAndRedrawOperations : Obligations.KeyAndRedrawOperations := by
  refine ⟨fun k b s => ⟨_, rfl, rfl, ?_, fun j hj => ?_⟩, fun b s => rfl⟩
  · rw [isPressed_setPressed, if_pos rfl]
  · rw [isPressed_setPressed, if_neg hj]

end

/-! # Memory: its canonical form along every step, what clearing gives, and the fetch of stored bytes
(rules R50 to R54, R64, R240) -/

namespace Sys2Proof.Machine

/-! ## What a cycle can leave in memory (R10, R155, R156) -/

/-- The memories that a cycle from `s` can leave. -/
inductive MemAfter (s : State) : Memory → Prop where
  /-- Every instruction but Fx33 and Fx55, and every fault, leaves memory as it was. -/
  | stay : MemAfter s s.mem
  | stored {a : Nat} {bs : List Byte} (h : a + bs.length ≤ 4096) : MemAfter s (Memory.writeList s.config s.mem a bs)

/-- The memory after a cycle is canonical if the memory before it is. -/
theorem MemAfter.wf {s : State} {m : Memory} (h : MemAfter s m) (hs : s.MemCanonical) : Memory.wf s.config m := by
  cases h with
  | stay => exact hs
  | stored hfits => exact Memory.writeList_wf _ hs hfits

/-- A fault leaves memory as it was, so a cycle that may raise need only be looked at where it completes. -/
theorem MemAfter.of_finish {s t : State} {op : Word} {r : Except Cause State} (h : s.finish op r = .next t)
    (hr : ∀ u, r = .ok u → MemAfter s u.mem) : MemAfter s t.mem := by
  rcases State.finish_cases h with hok | ⟨c, -, rfl⟩
  · exact hr t hok
  · exact .stay

theorem execRet_mem {s t : State} (h : execRet s = .next t) : MemAfter s t.mem := by
  refine MemAfter.of_finish h fun u hu => ?_
  split at hu
  · next w v hpop =>
    obtain ⟨_, -, rfl⟩ := State.pop_cases hpop
    cases hu
    exact .stay
  · cases hu

theorem execCall_mem {nnn : Addr} {s t : State} (h : execCall nnn s = .next t) : MemAfter s t.mem := by
  refine MemAfter.of_finish h fun u hu => ?_
  split at hu
  · next v hpush =>
    obtain ⟨_, rfl⟩ := State.push_cases hpush
    cases hu
    exact .stay
  · cases hu

theorem execDrw_mem {x y : RegIdx} {n : Nibble} {s t : State} (h : execDrw x y n s = .next t) : MemAfter s t.mem := by
  refine MemAfter.of_finish h fun u hu => ?_
  split at hu
  · cases hu
    exact .stay
  · cases hu

theorem State.skipOnKey_mem {s u : State} {v : Byte} {b : Bool} (h : s.advance.skipOnKey v b = .ok u) :
    MemAfter s u.mem := by
  obtain ⟨k, -, rfl⟩ := State.skipOnKey_cases h
  rw [State.skipIf_eq]
  exact .stay

/-- Completed stores lie inside memory; with no byte to store there is nothing to keep inside. -/
theorem State.storeBytes_mem {s u : State} {a : Nat} {bs : List Byte} (h : s.advance.storeBytes a bs = .ok u) :
    MemAfter s u.mem := by
  by_cases hfits : a + bs.length ≤ 4096
  · rw [State.storeBytes_cases h]
    exact .stored hfits
  · rcases eq_or_ne bs [] with rfl | hne
    · cases h
      exact .stay
    · rw [State.storeBytes_error _ bs (by omega) hne] at h
      cases h

theorem State.loadRegs_mem {s u : State} {a : Nat} {ks : List RegIdx} (h : s.advance.loadRegs a ks = .ok u) :
    MemAfter s u.mem := by
  obtain ⟨⟨V, rfl⟩, -⟩ := State.loadRegs_cases h
  exact .stay

theorem State.waitKey_mem (s : State) (x : RegIdx) : MemAfter s (s.advance.waitKey x).mem := by
  rcases State.waitKey_cases s.advance x with ⟨-, hw⟩ | ⟨k, -, hw⟩ <;> rw [hw]
  · exact .stay
  · exact .stay

theorem exec_mem {i : Instr} {s t : State} (h : exec i s = .next t) : MemAfter s t.mem := by
  cases i
  case ret => exact execRet_mem h
  case call nnn => exact execCall_mem h
  case drw x y n => exact execDrw_mem h
  case skp | sknp => exact MemAfter.of_finish h fun _ => State.skipOnKey_mem
  case ldBVx | ldMemVx => exact MemAfter.of_finish h fun _ => State.storeBytes_mem
  case ldVxMem => exact MemAfter.of_finish h fun _ => State.loadRegs_mem
  case ldVxK x => cases h; exact State.waitKey_mem s x
  case seVxNn | sneVxNn | seVxVy | sneVxVy =>
    cases h
    rw [State.skipIf_eq]
    exact .stay
  -- Every other instruction completes, and writes registers and fields outside memory alone.
  all_goals
    cases h
    exact .stay

/-! ## Every move keeps the canonical form -/

theorem unknownOpcode_mem (w : Word) (s : State) : (unknownOpcode w s).mem = s.mem := by
  unfold unknownOpcode
  split <;> rfl

theorem cycle_mem {s t : State} (h : cycle s = .next t) : MemAfter s t.mem := by
  obtain ⟨-, rfl⟩ | ⟨-, w, i, -, -, hexec⟩ | ⟨-, w, e, -, -, rfl⟩ | ⟨-, c, -, rfl⟩ := cycle_cases h
  · exact .stay
  · exact exec_mem hexec
  · rw [unknownOpcode_mem]
    exact .stay
  · exact .stay

/-- A load takes its fault, which leaves memory, or writes its bytes over the power-on contents (R243). -/
theorem loadProgram_memCanonical {s : State} (bytes : List Byte) (hs : s.MemCanonical) :
    (loadProgram bytes s).MemCanonical := by
  unfold loadProgram
  split
  · exact hs
  · next m hload => exact Memory.writeBlock_wf (Memory.powerOn_wf s.config) hload

theorem perform_memCanonical {m : Move} {s t : State} (h : perform m s = .next t) (hs : s.MemCanonical) :
    t.MemCanonical := by
  cases m
  case cycle =>
    have hwf := (cycle_mem h).wf hs
    rwa [← cycle_config h] at hwf
  case timerTick =>
    cases h
    obtain ⟨dt, st, os, htick⟩ := timerTick_eq s
    rw [htick]
    exact hs
  case loadProgram bytes => cases h; exact loadProgram_memCanonical bytes hs
  case hardReset => cases h; exact Memory.powerOn_wf s.config
  case setPressed | readFrame | clearDrawFlag | softReset => cases h; exact hs

/-! ## Clearing memory and writing the font (R52, R240) -/

theorem unlistedByte_of_lt (c : Config) {a : Nat} (h : a < 80) : unlistedByte c a = c.font[a] := dif_pos h

theorem unlistedByte_of_ge (c : Config) {a : Nat} (h : 80 ≤ a) : unlistedByte c a = 0 := dif_neg (by omega)

/-- A canonical memory lists nothing outside 0 to 4095, so there an address reads as unlisted. -/
theorem Memory.read_of_outside {c : Config} {m : Memory} (h : Memory.wf c m) {a : Nat} (ha : 4096 ≤ a) :
    Memory.read c m a = unlistedByte c a := by
  have herase : Memory.erase a m = m := List.filter_eq_self.mpr fun e he => by
    have := (h.2 e he).1
    simp only [bne_iff_ne]
    omega
  have hlookup : Memory.lookup a m = none := by
    rw [← herase, Memory.lookup_erase, if_pos rfl]
  rw [Memory.read, hlookup, Option.getD_none]

theorem Memory.clearAll_wf {c : Config} {m : Memory} (h : Memory.wf c m) : Memory.wf c (Memory.clearAll c m) :=
  Memory.clearRange_wf h (by omega) (by omega)

/-- After a clear every byte reads 0, those outside memory too. -/
theorem Memory.read_clearAll {c : Config} {m : Memory} (h : Memory.wf c m) (a : Nat) :
    Memory.read c (Memory.clearAll c m) a = 0 := by
  rw [Memory.clearAll, Memory.clearRange, Memory.read_writeList, if_pos (Nat.zero_le a), List.getElem?_replicate]
  split
  · rfl
  · rw [Option.getD_none, Memory.read_of_outside h (by omega), unlistedByte_of_ge c (by omega)]

/-- A block that ends inside memory is written (R52). -/
theorem Memory.writeBlock_ok (c : Config) (m : Memory) {vs : List Byte} {a : Nat} (h : a + vs.length ≤ 4096) :
    Memory.writeBlock c m vs a = .ok (Memory.writeList c m a vs) := if_neg (by omega)

/-- FONT written at 0 over zeros reads as the power-on contents do. -/
theorem Memory.read_writeList_font {c : Config} {m : Memory} (h : ∀ a, Memory.read c m a = 0) (a : Nat) :
    Memory.read c (Memory.writeList c m 0 c.font.toList) a = Memory.read c Memory.powerOn a := by
  rw [Memory.read_writeList, if_pos (Nat.zero_le a), Memory.read_powerOn, h, Nat.sub_zero]
  by_cases ha : a < 80
  · simp [unlistedByte_of_lt c ha, ha]
  · rw [List.getElem?_eq_none (by simpa using ha), Option.getD_none, unlistedByte_of_ge c (by omega)]

/-! ## Fx55 where it completes (R156) -/

/-- Vk is the byte that stores of V0 to Vx from I upward leave at I + k. -/
theorem byteAt_writeList_regsUpTo (s : State) {x : RegIdx} {k : Nat} (hk : k ≤ x.toNat) :
    State.byteAt { s with mem := Memory.writeList s.config s.mem (s.effAddr 0) ((regsUpTo x).map s.reg) }
      (s.effAddr k) = s.reg (BitVec.ofNat 4 k) := by
  have hlen : k < (regsUpTo x).length := by rw [length_regsUpTo]; omega
  have hoff : s.effAddr k - s.effAddr 0 = k := by simp only [State.effAddr]; omega
  rw [State.byteAt_writeList, if_pos (by simp only [State.effAddr]; omega), hoff, List.getElem?_map,
    List.getElem?_eq_getElem hlen, getElem_regsUpTo, Option.map_some, Option.getD_some]

/-- Fx55 with its last address inside memory completes, changes memory and pc alone, and leaves Vk at I + k. -/
theorem exec_ldMemVx_of_fits {x : RegIdx} {s : State} (h : s.effAddr x.toNat ≤ 4095) :
    ∃ t, exec (.ldMemVx x) s = .next t ∧ t = { s with mem := t.mem, pc := s.pc + 2 } ∧
      ∀ k, k ≤ x.toNat → t.byteAt (s.effAddr k) = s.reg (BitVec.ofNat 4 k) := by
  have hfits : s.effAddr 0 + ((regsUpTo x).map s.reg).length ≤ 4096 := by
    simp only [State.effAddr, List.length_map, length_regsUpTo] at h ⊢
    omega
  exact ⟨_, congrArg (s.finish _) (State.storeBytes_ok s.advance _ hfits), rfl,
    fun _ hk => byteAt_writeList_regsUpTo s.advance hk⟩

end Sys2Proof.Machine

section
open Sys2Proof Sys2Proof.Machine

/-- Settles O58: every move keeps the form, and the schedule has no part in it. -/
theorem everyStepKeepsMemoryCanonical : Obligations.EveryStepKeepsMemoryCanonical := by
  intro s t hs h
  obtain ⟨m, ms, hperform⟩ := step_cases h
  exact perform_memCanonical hperform hs

/-- Settles O20: both memories are canonical and read the same, so they are the same list. -/
theorem clearAllThenFontIsPowerOn : Obligations.ClearAllThenFontIsPowerOn := by
  intro c m h
  have hfits : 0 + c.font.toList.length ≤ 4096 := by simp
  have hwf := Memory.writeList_wf c.font.toList (Memory.clearAll_wf h) hfits
  rw [Memory.writeBlock_ok c _ hfits,
    Memory.ext_of_read hwf (Memory.powerOn_wf c) (Memory.read_writeList_font (Memory.read_clearAll h))]

/-- Settles O49: the fetch after Fx55 is at I, and reads there the first two bytes stored. -/
theorem storedBytesAreFetched : Obligations.StoredBytesAreFetched := by
  intro x s hx hfits hI
  obtain ⟨t, hexec, ht, hbyte⟩ := exec_ldMemVx_of_fits hfits
  have hpc : t.pc.toNat = s.effAddr 0 := by rw [ht, ← hI]; rfl
  have hle : t.pc.toNat ≤ 4094 := by
    simp only [State.effAddr] at hfits hpc
    omega
  have hhi : t.byteAt t.pc.toNat = s.reg 0 := hpc ▸ hbyte 0 (Nat.zero_le _)
  have hlo : t.byteAt (t.pc.toNat + 1) = s.reg 1 := hpc ▸ hbyte 1 hx
  exact ⟨t, hexec, by rw [State.fetch_ok t hle, hhi, hlo]⟩

/-- Settles O8: the fetch below 4095 answers the word of the two bytes, whose value is the sum. -/
theorem fetchIsBigEndian : Obligations.FetchIsBigEndian :=
  fun s h => ⟨_, State.fetch_ok s h, wordOfBytes_toNat _ _⟩

end

/-! # Encoding: decoding and encoding undo each other, the opcode map, and the unknown words (rules R80 to R87) -/

namespace Sys2Proof

/-! ## Decoding an encoded instruction (R81, R82) -/

@[simp] theorem Operand.wf_reg (x : RegIdx) : (Operand.reg x.toNat).wf = true :=
  decide_eq_true (Nat.le_of_lt_succ x.isLt)

@[simp] theorem Operand.wf_imm4 (n : Nibble) : (Operand.imm4 n.toNat).wf = true :=
  decide_eq_true (Nat.le_of_lt_succ n.isLt)

@[simp] theorem Operand.wf_imm8 (k : Byte) : (Operand.imm8 k.toNat).wf = true :=
  decide_eq_true (Nat.le_of_lt_succ k.isLt)

@[simp] theorem Operand.wf_addr (a : Addr) : (Operand.addr a.toNat).wf = true :=
  decide_eq_true (Nat.le_of_lt_succ a.isLt)

/-- Each operand's type is exactly its field's range, so no instruction is out of range (R82). -/
theorem Instr.wf_eq_true (i : Instr) : i.wf = true := by
  cases i <;> simp [Instr.wf, Instr.operands]

/-- The first digit of the encoded word selects the arm of the decoder, the function code the one below it, and the
fields of the word are the operands (R83, R84). -/
theorem decode_encode (i : Instr) : decode (encode i) = .ok i := by
  cases i
  case cls | ret => rfl
  -- Formats A and I: the first digit alone decides.
  case jp | call | ldINnn | jpV0 | seVxNn | sneVxNn | ldVxNn | addVxNn | rnd => simp [encode, decode]
  -- Format D, and the rows of format R outside digit 8.
  case drw | seVxVy | sneVxVy => simp [encode, decode]
  case ldVxVy | or | and | xor | addVxVy | sub | shr | subn | shl => simp [encode, decode, decode8]
  -- Format X: the function code is the low byte.
  case skp | sknp => simp [encode, decode]
  case ldVxDt | ldVxK | ldDtVx | ldStVx | addIVx | ldFVx | ldHfVx | ldBVx | ldMemVx | ldVxMem =>
    simp [encode, decode, decodeF]

theorem decodeBytes_encodeBytes_append (i : Instr) (rest : List Byte) :
    decodeBytes (encodeBytes i ++ rest) = .ok (i, rest) := by
  simp [encodeBytes, decodeBytes, decode_encode]

/-! ## A word is the encoding of its fields, at the first digit and the function code they have (R81) -/

theorem encodeA_of_fields {w : Word} {t : Nibble} (ht : fieldTop w = t) : encodeA t (fieldNnn w) = w :=
  ht ▸ encodeA_fields w

theorem encodeI_of_fields {w : Word} {t : Nibble} {k : Byte} (ht : fieldTop w = t) (hk : fieldNn w = k) :
    encodeI t (fieldX w) k = w :=
  ht ▸ hk ▸ encodeI_fields w

theorem encodeR_of_fields {w : Word} {t n : Nibble} (ht : fieldTop w = t) (hn : fieldN w = n) :
    encodeR t (fieldX w) (fieldY w) n = w :=
  ht ▸ hn ▸ encodeR_fields w

/-! ## What decoding can answer (R82, R85, R87) -/

/-- The six classes of words that rule R85 lists. -/
def UnknownWord (w : Word) : Prop :=
  (fieldTop w = 0x0 ∧ w ≠ 0x00E0 ∧ w ≠ 0x00EE) ∨
  (fieldTop w = 0x5 ∧ fieldN w ≠ 0) ∨
  (fieldTop w = 0x8 ∧ fieldN w ∈ [0x8, 0x9, 0xA, 0xB, 0xC, 0xD, 0xF]) ∨
  (fieldTop w = 0x9 ∧ fieldN w ≠ 0) ∨
  (fieldTop w = 0xE ∧ fieldNn w ∉ [0x9E, 0xA1]) ∨
  (fieldTop w = 0xF ∧ fieldNn w ∉ [0x07, 0x0A, 0x15, 0x18, 0x1E, 0x29, 0x30, 0x33, 0x55, 0x65])

/-- What the decoder answers on a word: an instruction of which it is the encoding, or a failure that names the word, on
a word of R85's classes. -/
inductive DecodeAnswer (w : Word) : Except DecodeError Instr → Prop where
  | ok {i : Instr} (h : encode i = w) : DecodeAnswer w (.ok i)
  | error (h : UnknownWord w) : DecodeAnswer w (.error (.unknownOpcode w))

theorem decode8_answer {w : Word} (ht : fieldTop w = 0x8) : DecodeAnswer w (decode8 w) := by
  unfold decode8
  split
  case h_10 =>
    have hn : fieldN w ∈ [0x8, 0x9, 0xA, 0xB, 0xC, 0xD, 0xF] := by
      generalize fieldN w = n at *
      decide +revert
    exact .error (.inr (.inr (.inl ⟨ht, hn⟩)))
  -- Each of the nine function codes leaves a word of format R.
  all_goals exact .ok (encodeR_of_fields ht ‹_›)

theorem decodeF_answer {w : Word} (ht : fieldTop w = 0xF) : DecodeAnswer w (decodeF w) := by
  unfold decodeF
  split
  case h_11 =>
    have hk : fieldNn w ∉ [0x07, 0x0A, 0x15, 0x18, 0x1E, 0x29, 0x30, 0x33, 0x55, 0x65] := by simp_all
    exact .error (.inr (.inr (.inr (.inr (.inr ⟨ht, hk⟩)))))
  -- Each of the ten function codes leaves a word of format X.
  all_goals exact .ok (encodeI_of_fields ht ‹_›)

theorem decode_answer (w : Word) : DecodeAnswer w (decode w) := by
  unfold decode
  split
  case h_1 ht =>
    split_ifs with h1 h2
    · exact .ok h1.symm
    · exact .ok h2.symm
    · exact .error (.inl ⟨ht, h1, h2⟩)
  case h_6 ht =>
    split_ifs with hn
    · exact .ok (encodeR_of_fields ht hn)
    · exact .error (.inr (.inl ⟨ht, hn⟩))
  case h_9 ht => exact decode8_answer ht
  case h_10 ht =>
    split_ifs with hn
    · exact .ok (encodeR_of_fields ht hn)
    · exact .error (.inr (.inr (.inr (.inl ⟨ht, hn⟩))))
  case h_14 ht => exact .ok (encodeR_of_fields ht rfl)
  case h_15 ht =>
    split_ifs with h1 h2
    · exact .ok (encodeI_of_fields ht h1)
    · exact .ok (encodeI_of_fields ht h2)
    · exact .error (.inr (.inr (.inr (.inr (.inl ⟨ht, by simp [h1, h2]⟩)))))
  case h_16 =>
    have ht : fieldTop w = 0xF := by
      generalize fieldTop w = t at *
      decide +revert
    exact decodeF_answer ht
  case h_2 ht | h_3 ht | h_11 ht | h_12 ht => exact .ok (encodeA_of_fields ht)
  case h_4 ht | h_5 ht | h_7 ht | h_8 ht | h_13 ht => exact .ok (encodeI_of_fields ht rfl)

theorem encode_of_decode {w : Word} {i : Instr} (h : decode w = .ok i) : encode i = w := by
  have hw := decode_answer w
  rw [h] at hw
  cases hw
  assumption

theorem decode_error {w : Word} {e : DecodeError} (h : decode w = .error e) : e = .unknownOpcode w ∧ UnknownWord w := by
  have hw := decode_answer w
  rw [h] at hw
  cases hw
  exact ⟨rfl, ‹_›⟩

/-- No instruction's word is in one of the classes: its first digit leaves one of them at most, and its function code
is not in that one. -/
theorem not_unknownWord_encode (i : Instr) : ¬ UnknownWord (encode i) := by
  cases i
  case cls | ret => unfold UnknownWord; decide
  all_goals simp [UnknownWord, encode]

theorem decode_error_iff (w : Word) : (∃ e, decode w = .error e) ↔ UnknownWord w := by
  constructor
  · rintro ⟨e, h⟩
    exact (decode_error h).2
  · intro h
    cases hdec : decode w with
    | ok i => exact absurd (encode_of_decode hdec ▸ h) (not_unknownWord_encode i)
    | error e => exact ⟨e, rfl⟩

/-! ## The fields that the masks of the opcode map keep (R84) -/

@[simp] theorem fieldTop_and_F000 (w : Word) : fieldTop (w &&& 0xF000#16) = fieldTop w := by
  apply BitVec.eq_of_toNat_eq
  rw [fieldTop_toNat, fieldTop_toNat, and_high]
  omega

@[simp] theorem fieldTop_and_F00F (w : Word) : fieldTop (w &&& 0xF00F#16) = fieldTop w := by
  apply BitVec.eq_of_toNat_eq
  rw [fieldTop_toNat, fieldTop_toNat, and_F00F]
  omega

@[simp] theorem fieldN_and_F00F (w : Word) : fieldN (w &&& 0xF00F#16) = fieldN w := by
  apply BitVec.eq_of_toNat_eq
  rw [fieldN_toNat, fieldN_toNat, and_F00F]
  omega

@[simp] theorem fieldTop_and_F0FF (w : Word) : fieldTop (w &&& 0xF0FF#16) = fieldTop w := by
  apply BitVec.eq_of_toNat_eq
  rw [fieldTop_toNat, fieldTop_toNat, and_F0FF]
  omega

@[simp] theorem fieldNn_and_F0FF (w : Word) : fieldNn (w &&& 0xF0FF#16) = fieldNn w := by
  apply BitVec.eq_of_toNat_eq
  rw [fieldNn_toNat, fieldNn_toNat, and_F0FF]
  omega

/-! ## A word that selects a row is the encoding of its fields under the row's first digit and function code -/

theorem encodeA_of_and {w : Word} {t : Nibble} (h : w &&& 0xF000#16 = encodeA t 0) : encodeA t (fieldNnn w) = w :=
  encodeA_of_fields (by simpa using congrArg fieldTop h)

theorem encodeI_of_and {w : Word} {t : Nibble} (h : w &&& 0xF000#16 = encodeI t 0 0) :
    encodeI t (fieldX w) (fieldNn w) = w :=
  encodeI_of_fields (by simpa using congrArg fieldTop h) rfl

theorem encodeI_of_and_function {w : Word} {t : Nibble} {k : Byte} (h : w &&& 0xF0FF#16 = encodeI t 0 k) :
    encodeI t (fieldX w) k = w :=
  encodeI_of_fields (by simpa using congrArg fieldTop h) (by simpa using congrArg fieldNn h)

theorem encodeR_of_and {w : Word} {t : Nibble} (h : w &&& 0xF000#16 = encodeR t 0 0 0) :
    encodeR t (fieldX w) (fieldY w) (fieldN w) = w :=
  encodeR_of_fields (by simpa using congrArg fieldTop h) rfl

theorem encodeR_of_and_function {w : Word} {t n : Nibble} (h : w &&& 0xF00F#16 = encodeR t 0 0 n) :
    encodeR t (fieldX w) (fieldY w) n = w :=
  encodeR_of_fields (by simpa using congrArg fieldTop h) (by simpa using congrArg fieldN h)

/-- A word that selects the row is the encoding of an instruction with the row's mnemonic: the converse of
`Laws.EncodeRow.Statement`. -/
def OpcodeRow.Encodes (r : OpcodeRow) : Prop :=
  ∀ w : Word, w &&& r.mask = r.pattern → ∃ i : Instr, i.mnemonic = r.id ∧ encode i = w

theorem opcodeRowsLow_encode : ∀ r ∈ opcodeRowsLow, r.Encodes := by
  simp only [opcodeRowsLow, List.forall_mem_cons]
  exact ⟨fun _ h => ⟨.cls, rfl, h.symm.trans (and_FFFF _)⟩,
    fun _ h => ⟨.ret, rfl, h.symm.trans (and_FFFF _)⟩,
    fun _ h => ⟨.jp _, rfl, encodeA_of_and h⟩,
    fun _ h => ⟨.call _, rfl, encodeA_of_and h⟩,
    fun _ h => ⟨.seVxNn _ _, rfl, encodeI_of_and h⟩,
    fun _ h => ⟨.sneVxNn _ _, rfl, encodeI_of_and h⟩,
    fun _ h => ⟨.seVxVy _ _, rfl, encodeR_of_and_function h⟩,
    fun _ h => ⟨.ldVxNn _ _, rfl, encodeI_of_and h⟩,
    fun _ h => ⟨.addVxNn _ _, rfl, encodeI_of_and h⟩,
    List.forall_mem_nil _⟩

theorem opcodeRows8_encode : ∀ r ∈ opcodeRows8, r.Encodes := by
  simp only [opcodeRows8, List.forall_mem_cons]
  exact ⟨fun _ h => ⟨.ldVxVy _ _, rfl, encodeR_of_and_function h⟩,
    fun _ h => ⟨.or _ _, rfl, encodeR_of_and_function h⟩,
    fun _ h => ⟨.and _ _, rfl, encodeR_of_and_function h⟩,
    fun _ h => ⟨.xor _ _, rfl, encodeR_of_and_function h⟩,
    fun _ h => ⟨.addVxVy _ _, rfl, encodeR_of_and_function h⟩,
    fun _ h => ⟨.sub _ _, rfl, encodeR_of_and_function h⟩,
    fun _ h => ⟨.shr _ _, rfl, encodeR_of_and_function h⟩,
    fun _ h => ⟨.subn _ _, rfl, encodeR_of_and_function h⟩,
    fun _ h => ⟨.shl _ _, rfl, encodeR_of_and_function h⟩,
    List.forall_mem_nil _⟩

theorem opcodeRowsHigh_encode : ∀ r ∈ opcodeRowsHigh, r.Encodes := by
  simp only [opcodeRowsHigh, List.forall_mem_cons]
  exact ⟨fun _ h => ⟨.sneVxVy _ _, rfl, encodeR_of_and_function h⟩,
    fun _ h => ⟨.ldINnn _, rfl, encodeA_of_and h⟩,
    fun _ h => ⟨.jpV0 _, rfl, encodeA_of_and h⟩,
    fun _ h => ⟨.rnd _ _, rfl, encodeI_of_and h⟩,
    fun _ h => ⟨.drw _ _ _, rfl, encodeR_of_and h⟩,
    fun _ h => ⟨.skp _, rfl, encodeI_of_and_function h⟩,
    fun _ h => ⟨.sknp _, rfl, encodeI_of_and_function h⟩,
    fun _ h => ⟨.ldVxDt _, rfl, encodeI_of_and_function h⟩,
    fun _ h => ⟨.ldVxK _, rfl, encodeI_of_and_function h⟩,
    fun _ h => ⟨.ldDtVx _, rfl, encodeI_of_and_function h⟩,
    fun _ h => ⟨.ldStVx _, rfl, encodeI_of_and_function h⟩,
    fun _ h => ⟨.addIVx _, rfl, encodeI_of_and_function h⟩,
    fun _ h => ⟨.ldFVx _, rfl, encodeI_of_and_function h⟩,
    fun _ h => ⟨.ldHfVx _, rfl, encodeI_of_and_function h⟩,
    fun _ h => ⟨.ldBVx _, rfl, encodeI_of_and_function h⟩,
    fun _ h => ⟨.ldMemVx _, rfl, encodeI_of_and_function h⟩,
    fun _ h => ⟨.ldVxMem _, rfl, encodeI_of_and_function h⟩,
    List.forall_mem_nil _⟩

theorem opcodeRows_encode {r : OpcodeRow} (hr : r ∈ opcodeRows) : r.Encodes := by
  rw [opcodeRows, List.mem_append, List.mem_append] at hr
  obtain (hr | hr) | hr := hr
  · exact opcodeRowsLow_encode r hr
  · exact opcodeRows8_encode r hr
  · exact opcodeRowsHigh_encode r hr

/-! ## The opcode map as a table: a row for each instruction, no two for one mnemonic or one word (R83, R84) -/

theorem encodeRow (i : Instr) : Laws.EncodeRow.Statement i := by
  cases i
  exacts [Laws.EncodeRow.cls, Laws.EncodeRow.ret, Laws.EncodeRow.jp _, Laws.EncodeRow.call _,
    Laws.EncodeRow.seVxNn _ _, Laws.EncodeRow.sneVxNn _ _, Laws.EncodeRow.seVxVy _ _, Laws.EncodeRow.ldVxNn _ _,
    Laws.EncodeRow.addVxNn _ _, Laws.EncodeRow.ldVxVy _ _, Laws.EncodeRow.or _ _, Laws.EncodeRow.and _ _,
    Laws.EncodeRow.xor _ _, Laws.EncodeRow.addVxVy _ _, Laws.EncodeRow.sub _ _, Laws.EncodeRow.shr _ _,
    Laws.EncodeRow.subn _ _, Laws.EncodeRow.shl _ _, Laws.EncodeRow.sneVxVy _ _, Laws.EncodeRow.ldINnn _,
    Laws.EncodeRow.jpV0 _, Laws.EncodeRow.rnd _ _, Laws.EncodeRow.drw _ _ _, Laws.EncodeRow.skp _,
    Laws.EncodeRow.sknp _, Laws.EncodeRow.ldVxDt _, Laws.EncodeRow.ldVxK _, Laws.EncodeRow.ldDtVx _,
    Laws.EncodeRow.ldStVx _, Laws.EncodeRow.addIVx _, Laws.EncodeRow.ldFVx _, Laws.EncodeRow.ldHfVx _,
    Laws.EncodeRow.ldBVx _, Laws.EncodeRow.ldMemVx _, Laws.EncodeRow.ldVxMem _]

theorem opcodeRow_eq_of_id {r r' : OpcodeRow} (hr : r ∈ opcodeRows) (hr' : r' ∈ opcodeRows) (h : r.id = r'.id) :
    r = r' := by
  have hnodup : (opcodeRows.map OpcodeRow.id).Nodup := by decide
  exact List.inj_on_of_nodup_map hnodup hr hr' h

/-- Two rows whose patterns agree on the bits that both masks keep are the same row. -/
theorem opcodeRow_eq_of_and : ∀ r ∈ opcodeRows, ∀ r' ∈ opcodeRows,
    r.pattern &&& r'.mask = r'.pattern &&& r.mask → r = r' := by decide

theorem OpcodeRow.selects_iff {r : OpcodeRow} {w : Word} : r.selects w = true ↔ w &&& r.mask = r.pattern := beq_iff_eq

theorem opcodeRow_eq_of_selects {r r' : OpcodeRow} {w : Word} (hr : r ∈ opcodeRows) (hr' : r' ∈ opcodeRows)
    (h : r.selects w = true) (h' : r'.selects w = true) : r = r' := by
  rw [OpcodeRow.selects_iff] at h h'
  refine opcodeRow_eq_of_and r hr r' hr' ?_
  rw [← h, ← h', BitVec.and_assoc, BitVec.and_assoc, BitVec.and_comm r.mask]

theorem selects_iff_decode {r : OpcodeRow} (hr : r ∈ opcodeRows) (w : Word) :
    r.selects w = true ↔ ∃ i, decode w = .ok i ∧ i.mnemonic = r.id := by
  constructor
  · intro h
    obtain ⟨i, hid, rfl⟩ := opcodeRows_encode hr w (OpcodeRow.selects_iff.mp h)
    exact ⟨i, decode_encode i, hid⟩
  · rintro ⟨i, hdec, hid⟩
    obtain ⟨r', hr', hid', hsel⟩ := encodeRow i
    rw [encode_of_decode hdec] at hsel
    rwa [opcodeRow_eq_of_id hr hr' (hid.symm.trans hid'.symm)]

end Sys2Proof

namespace Sys2Proof.Machine

/-! ## A fetch outside memory (R80, R203) -/

theorem cycle_of_fetch_error {s : State} {c : Cause} (hrun : s.run = .running) (hfetch : s.fetch = .error c) :
    cycle s = .next (s.takeFault c (some s.pc) none) := by
  simp only [cycle, hrun, hfetch]

end Sys2Proof.Machine

section
open Sys2Proof Sys2Proof.Machine

/-- Settles O1, by cases on the instruction: the encoded word's fields select its arm and are its operands. -/
theorem decodeOfEncodeIsIdentity : Obligations.DecodeOfEncodeIsIdentity :=
  fun i => ⟨i.wf_eq_true, decode_encode i, decodeBytes_encodeBytes_append i⟩

/-- Settles O2: every answer of the decoder is an instruction of which the word is the encoding. -/
theorem encodeOfDecodeIsIdentity : Obligations.EncodeOfDecodeIsIdentity :=
  fun _ _ => encode_of_decode

/-- Settles O3: a word that selects a row is the encoding of an instruction of that row, and an instruction's word
selects the one row with its mnemonic. -/
theorem decodeFollowsTheOpcodeMap : Obligations.DecodeFollowsTheOpcodeMap :=
  fun w _ hr => selects_iff_decode hr w

/-- Settles O4: two rows that one word selects agree on the bits that both masks keep. -/
theorem opcodeRowsAreDisjoint : Obligations.OpcodeRowsAreDisjoint :=
  ⟨rfl, fun _ _ hr _ hr' => opcodeRow_eq_of_selects hr hr'⟩

/-- Settles O5: the decoder's failures are in the classes, and no instruction's word is in one. -/
theorem unknownWordsAreTheListedOnes : Obligations.UnknownWordsAreTheListedOnes :=
  fun w => ⟨fun _ h => (decode_error h).1, decode_error_iff w⟩

/-- Settles O6: the known words are encodings, and the two others are run through the decoder. -/
theorem listedWordsDecode : Obligations.ListedWordsDecode :=
  ⟨decode_encode .cls, rfl, decode_encode (.drw 1 2 15), decode_encode (.addVxVy 10 11), decode_encode (.ldVxMem 9),
    decode_encode (.jpV0 0xFFF), decodeBytes_encodeBytes_append (.ldVxNn 10 5) [], rfl⟩

/-- Settles O9: the fetch fails at the first address above 4095 that it reads, and the cycle takes that fault. -/
theorem fetchOutsideMemoryFaults : Obligations.FetchOutsideMemoryFaults := by
  intro s hrun hsch hpc
  have haddr : (if s.pc.toNat = 4095 then 4096 else s.pc.toNat) = max s.pc.toNat 4096 := by split_ifs <;> omega
  rw [step_of_schedule_nil hsch, cycle_of_fetch_error hrun (State.fetch_error s hpc), haddr]
  rfl

end

/-! # The display: what a clear and a completed draw do, and which access of a draw fails first (rules R101 to R103) -/

namespace Sys2Proof.Machine

/-! ## Framebuffers and flags -/

/-- A framebuffer is its pixels (R27). -/
theorem framebuffer_ext {f g : Framebuffer}
    (h : ∀ (x : Fin 64) (y : Fin 32), pixelAt f x.val y.val = pixelAt g x.val y.val) : f = g := by
  refine Vector.ext fun y hy => Vector.ext fun x hx => ?_
  have hxy := h ⟨x, hx⟩ ⟨y, hy⟩
  simpa only [pixelAt, dif_pos hx, dif_pos hy] using hxy

/-- A flag that is set exactly when `p` holds is the byte 1 or 0 by `p`. -/
theorem flagByte_of_iff {b : Bool} {p : Prop} (h : b = true ↔ p) :
    (p → flagByte b = 1) ∧ (¬ p → flagByte b = 0) := by
  refine ⟨fun hp => ?_, fun hp => ?_⟩
  · rw [h.mpr hp]
    rfl
  · rw [Bool.eq_false_iff.mpr (mt h.mp hp)]
    rfl

/-! ## The sprite on the display, as the statements speak of it -/

/-- Every set bit of the first `n` rows of the sprite at I is wrapped onto the grid or lies on it (R103). -/
abbrev State.RowsFit (s : State) (vx vy n : Nat) : Prop :=
  s.config.displayEdge = .wrap ∨ ∀ r, r < n → ∀ c, c < 8 → s.BitFits vx vy r c

/-- `g` is `f` with the pixels that the sprite covers flipped (R102). -/
def State.Flips (s : State) (vx vy n : Nat) (f g : Framebuffer) : Prop :=
  ∀ (px : Fin 64) (py : Fin 32),
    (s.Covers vx vy n px.val py.val → pixelAt g px.val py.val = !pixelAt f px.val py.val) ∧
    (¬ s.Covers vx vy n px.val py.val → pixelAt g px.val py.val = pixelAt f px.val py.val)

/-- The sprite covers a pixel that has the value `b` in `f`. -/
def State.Meets (s : State) (vx vy n : Nat) (f : Framebuffer) (b : Bool) : Prop :=
  ∃ (px : Fin 64) (py : Fin 32), s.Covers vx vy n px.val py.val ∧ pixelAt f px.val py.val = b

section
variable {s : State} {vx vy n : Nat} {f g h : Framebuffer}

theorem State.Flips.twice (hfg : s.Flips vx vy n f g) (hgh : s.Flips vx vy n g h) : h = f := by
  refine framebuffer_ext fun px py => ?_
  by_cases hcov : s.Covers vx vy n px.val py.val
  · rw [(hgh px py).1 hcov, (hfg px py).1 hcov, Bool.not_not]
  · rw [(hgh px py).2 hcov, (hfg px py).2 hcov]

/-- The flipped framebuffer has a covered pixel set where the one before it had that pixel clear. -/
theorem State.Flips.meets_true_iff (hfg : s.Flips vx vy n f g) : s.Meets vx vy n g true ↔ s.Meets vx vy n f false := by
  refine exists_congr fun px => exists_congr fun py => and_congr_right fun hcov => ?_
  rw [(hfg px py).1 hcov, Bool.not_eq_true']

theorem State.rowsCover_iff {px py : Nat} :
    s.rowsCover vx vy (List.range n) px py = true ↔ s.Covers vx vy n px py := by
  simp only [State.rowsCover, rowCovers, List.any_eq_true, List.mem_range, Bool.and_eq_true, decide_eq_true_eq]
  rfl

theorem State.flips_of_rowsCover
    (hfg : ∀ (px : Fin 64) (py : Fin 32), pixelAt g px.val py.val =
      xor (pixelAt f px.val py.val) (s.rowsCover vx vy (List.range n) px.val py.val)) : s.Flips vx vy n f g := by
  refine fun px py => ⟨fun hcov => ?_, fun hcov => ?_⟩
  · rw [hfg, State.rowsCover_iff.mpr hcov, Bool.xor_true]
  · rw [hfg, Bool.eq_false_iff.mpr (mt State.rowsCover_iff.mp hcov), Bool.xor_false]

/-- Where a set bit meets a set pixel, that pixel is a covered one. -/
theorem State.rowsHit_iff : s.rowsHit f vx vy (List.range n) = true ↔ s.Meets vx vy n f true := by
  simp only [State.rowsHit, rowHits, List.any_eq_true, List.mem_range, Bool.and_eq_true]
  constructor
  · rintro ⟨r, hr, c, hc, hbit, hset⟩
    exact ⟨Fin.ofNat 64 (vx + c), Fin.ofNat 32 (vy + r), ⟨r, hr, c, hc, hbit, rfl, rfl⟩, hset⟩
  · rintro ⟨px, py, ⟨r, hr, c, hc, hbit, hx, hy⟩, hset⟩
    exact ⟨r, hr, c, hc, hbit, by rwa [hx, hy]⟩

end

/-! ## A draw in which no access fails -/

/-- Rows none of whose accesses fails flip the covered pixels, and add to the collision whether they met a set pixel. -/
theorem State.drawRows_range_ok {s : State} {vx vy n : Nat} (hn : n ≤ 16) (hmem : ∀ r, r < n → s.effAddr r ≤ 4095)
    (hfit : s.RowsFit vx vy n) (acc : Framebuffer × Bool) :
    ∃ f, s.drawRows vx vy (List.range n) acc = .ok (f, acc.2 || s.rowsHit acc.1 vx vy (List.range n)) ∧
      s.Flips vx vy n acc.1 f := by
  obtain ⟨f, hdraw, hpixel⟩ := s.drawRows_ok (List.range n) acc
    (fun r hr => (List.mem_range.mp hr).trans_le hn) List.nodup_range
    (fun r hr => hmem r (List.mem_range.mp hr)) (hfit.imp id fun h r hr => h r (List.mem_range.mp hr))
  exact ⟨f, hdraw, State.flips_of_rowsCover hpixel⟩

/-- The state after a draw that gave the framebuffer `f` and the collision `hit` (R102). -/
def State.afterDraw (s : State) (f : Framebuffer) (hit : Bool) : State :=
  ((s.advance.setFb f).setReg 15 (flagByte hit)).setDraw true

theorem State.reg_afterDraw_VF (s : State) (f : Framebuffer) (hit : Bool) :
    (s.afterDraw f hit).reg 15 = flagByte hit := State.reg_setReg_same _ 15 _

theorem State.reg_afterDraw_ne (s : State) (f : Framebuffer) (hit : Bool) {z : RegIdx} (hz : z ≠ 15) :
    (s.afterDraw f hit).reg z = s.reg z := State.reg_setReg_ne _ hz _

section
variable {x y : RegIdx} {n : Nibble} {s : State}

theorem exec_drw_of_ok {f : Framebuffer} {hit : Bool}
    (h : s.drawSprite (s.reg x).toNat (s.reg y).toNat n.toNat = .ok (f, hit)) :
    exec (.drw x y n) s = .next (s.afterDraw f hit) := by
  show execDrw x y n s = _
  rw [execDrw, h]
  rfl

theorem exec_drw_of_error {c : Cause} (h : s.drawSprite (s.reg x).toNat (s.reg y).toNat n.toNat = .error c) :
    exec (.drw x y n) s = .next (s.afterFault c (some s.pc) (some (encode (.drw x y n)))) := by
  show execDrw x y n s = _
  rw [execDrw, h]
  rfl

/-- A draw whose accesses all succeed completes; it flips the covered pixels, and VF says whether one was set before. -/
theorem exec_drw_ok (hmem : ∀ r, r < n.toNat → s.effAddr r ≤ 4095)
    (hfit : s.RowsFit (s.reg x).toNat (s.reg y).toNat n.toNat) :
    ∃ f hit, exec (.drw x y n) s = .next (s.afterDraw f hit) ∧
      s.Flips (s.reg x).toNat (s.reg y).toNat n.toNat s.fb f ∧
      (hit = true ↔ s.Meets (s.reg x).toNat (s.reg y).toNat n.toNat s.fb true) := by
  obtain ⟨f, hdraw, hflips⟩ := State.drawRows_range_ok n.isLt.le hmem hfit (s.fb, false)
  exact ⟨f, _, exec_drw_of_ok hdraw, hflips, State.rowsHit_iff⟩

end

/-! ## The first access of a draw that fails -/

/-- The first `k` numbers, then `k`, then the rest: what a loop has behind it when it comes to `k`. -/
theorem range_eq_append_cons {k n : Nat} (h : k < n) : ∃ ks, List.range n = List.range k ++ k :: ks := by
  obtain ⟨m, rfl⟩ := Nat.exists_eq_add_of_lt h
  rw [Nat.add_assoc, List.range_add, List.range_succ_eq_map, List.map_cons, Nat.add_zero]
  exact ⟨_, rfl⟩

/-- Under the reject policy a row fails at its first set bit off the grid, column `c` (R103). -/
theorem drawColumns_error {b : Byte} {vx py c : Nat} (hc : c < 8)
    (hfit : ∀ d, d < c → b.getLsbD (7 - d) = true → vx + d ≤ 63 ∧ py ≤ 31) (hbit : b.getLsbD (7 - c) = true)
    (hoff : ¬ (vx + c ≤ 63 ∧ py ≤ 31)) (acc : Framebuffer × Bool) :
    drawColumns .reject b vx py (List.range 8) acc = .error (.addressOutOfRange (.display (vx + c) py)) := by
  obtain ⟨ds, hsplit⟩ := range_eq_append_cons hc
  obtain ⟨f, hbefore, -⟩ := drawColumns_ok (e := .reject) (List.range c) acc
    (fun d hd => (List.mem_range.mp hd).trans hc) List.nodup_range (.inr fun d hd => hfit d (List.mem_range.mp hd))
  rw [hsplit, drawColumns_append _ _ _ _ _ _ _ _ hbefore, drawColumns, if_pos hbit, xorPixel_error (by omega)]

section
variable {s : State} {vx vy n r : Nat}

/-- A draw whose rows before `r` succeed fails when, whatever they have drawn, row `r` fails on reading its byte or on
its columns (R102, R205). -/
theorem State.drawSprite_error (hr : r < n) (hn : n ≤ 16) (hmem : ∀ r', r' < r → s.effAddr r' ≤ 4095)
    (hfit : s.RowsFit vx vy r) {c : Cause} (hrow : ∀ rs acc, s.drawRows vx vy (r :: rs) acc = .error c) :
    s.drawSprite vx vy n = .error c := by
  obtain ⟨rs, hsplit⟩ := range_eq_append_cons hr
  obtain ⟨f, hbefore, -⟩ := State.drawRows_range_ok (hr.le.trans hn) hmem hfit (s.fb, false)
  rw [State.drawSprite, hsplit, State.drawRows_append _ _ _ _ _ _ _ hbefore]
  exact hrow rs _

theorem State.drawRows_error_mem (h : 4095 < s.effAddr r) (rs : List Nat) (acc : Framebuffer × Bool) :
    s.drawRows vx vy (r :: rs) acc = .error (.addressOutOfRange (.mem (s.effAddr r))) := by
  rw [State.drawRows, State.memRead_error s h.not_ge]

theorem State.drawRows_error_display {c : Nat} (hc : c < 8) (hmem : s.effAddr r ≤ 4095)
    (hedge : s.config.displayEdge = .reject) (hfit : ∀ d, d < c → s.BitFits vx vy r d)
    (hoff : ¬ s.BitFits vx vy r c) (rs : List Nat) (acc : Framebuffer × Bool) :
    s.drawRows vx vy (r :: rs) acc = .error (.addressOutOfRange (.display (vx + c) (vy + r))) := by
  obtain ⟨hbit, hgrid⟩ := Classical.not_imp.mp hoff
  have hcolumns := drawColumns_error (b := s.byteAt (s.effAddr r)) hc hfit hbit hgrid acc
  rw [State.drawRows, State.memRead_ok s hmem, hedge]
  simp only [hcolumns]

end

end Sys2Proof.Machine

section
open Sys2Proof Sys2Proof.Machine

/-- Settles O25: a completed draw flips the covered pixels, and writes the collision to VF and to no other register. -/
theorem drawFlipsTheCoveredPixels : Obligations.DrawFlipsTheCoveredPixels := by
  intro x y n s hmem hfit
  obtain ⟨f, hit, hexec, hflips, hhit⟩ := exec_drw_ok hmem hfit
  refine ⟨_, hexec, rfl, fun z hz => State.reg_afterDraw_ne s f hit hz, hflips, ?_⟩
  rw [State.reg_afterDraw_VF]
  exact flagByte_of_iff hhit

/-- Settles O26: the rows before `r` are drawn, and row `r` fails on its byte or at column `c`. -/
theorem drawFaultsInLoopOrder : Obligations.DrawFaultsInLoopOrder := by
  intro x y n s r hr hmem hfit
  refine ⟨fun hout => ?_, fun c hc hin hedge hbefore hoff => ?_⟩
  · exact exec_drw_of_error (State.drawSprite_error hr n.isLt.le hmem hfit (State.drawRows_error_mem hout))
  · exact exec_drw_of_error (State.drawSprite_error hr n.isLt.le hmem hfit
      (State.drawRows_error_display hc hin hedge hbefore hoff))

/-- Settles O27: the second draw covers the same pixels, so each is flipped back, and it meets a set pixel where the first
met a clear one. -/
theorem drawingTwiceRestoresTheDisplay : Obligations.DrawingTwiceRestoresTheDisplay := by
  intro x y n s hmem hfit
  obtain ⟨f, hit, hexec, hflips, -⟩ := exec_drw_ok hmem hfit
  obtain ⟨g, hit', hexec', hflips', hhit'⟩ := exec_drw_ok (s := { s.afterDraw f hit with V := s.V }) hmem hfit
  refine ⟨_, _, hexec, hexec', hflips.twice hflips', ?_⟩
  rw [State.reg_afterDraw_VF]
  exact flagByte_of_iff (hhit'.trans hflips.meets_true_iff)

/-- Settles O24: every pixel of the clear display is 0. -/
theorem clearDisplay : Obligations.ClearDisplay :=
  fun _ => ⟨_, rfl, rfl, fun x y => pixelAt_clearFb x.val y.val⟩

end

/-! # Control flow: what calls, returns, jumps and skips do (rules R24, R110 to R118) -/

namespace Sys2Proof.Machine

/-! ## Calls and returns, by the depth of the stack (R24, R111, R113) -/

section
variable {s : State} {k : Fin 16} {nnn : Addr}

/-- With `k + 1` saved addresses a pop takes entry `k`. -/
theorem State.pop_of_sp_eq_succ (h : s.sp.val = k.val + 1) :
    s.pop = .ok (s.stack[k], { s with sp := k.castSucc }) := by
  obtain ⟨_, hpop⟩ := State.pop_ok s (by omega)
  simp only [hpop, h, Nat.add_sub_cancel]
  rfl

/-- With `k` saved addresses, fewer than sixteen, a push writes entry `k`. -/
theorem State.push_of_sp_eq (w : Word) (h : s.sp.val = k.val) :
    s.push w = .ok { s with stack := s.stack.set k.val w, sp := k.succ } := by
  rw [State.push_ok s w (by omega)]
  simp only [h]
  rfl

theorem exec_ret_of_sp_eq_succ (h : s.sp.val = k.val + 1) :
    exec .ret s = .next { s with pc := s.stack[k], sp := k.castSucc, draw := true } := by
  show execRet s = _
  rw [execRet, State.pop_of_sp_eq_succ (s := s.advance) h]
  rfl

theorem exec_ret_of_sp_eq_zero (h : s.sp.val = 0) :
    exec .ret s = .next (s.afterFault .stackUnderflow (some s.pc) (some 0x00EE)) := by
  show execRet s = _
  rw [execRet, State.pop_error s.advance h.not_gt]
  rfl

theorem exec_call_of_sp_eq (h : s.sp.val = k.val) :
    exec (.call nnn) s =
      .next { s with pc := addrWord nnn, stack := s.stack.set k.val (s.pc + 2), sp := k.succ } := by
  show execCall nnn s = _
  rw [execCall, State.push_of_sp_eq (s := s.advance) _ h]
  rfl

theorem exec_call_of_sp_eq_sixteen (h : s.sp.val = 16) :
    exec (.call nnn) s = .next (s.afterFault .stackOverflow (some s.pc) (some (encode (.call nnn)))) := by
  show execCall nnn s = _
  rw [execCall, State.push_error s.advance _ h.not_lt]
  rfl

end

/-! ## Jumps (R118) -/

/-- The target of Bnnn needs no more than the sixteen bits of pc: at most 0xFFF + 0xFF. -/
theorem toNat_addrWord_add_byteWord (nnn : Addr) (v : Byte) :
    (addrWord nnn + byteWord v).toNat = nnn.toNat + v.toNat := by
  have hnnn := nnn.isLt
  have hv := v.isLt
  rw [BitVec.toNat_add, toNat_addrWord, toNat_byteWord]
  omega

/-! ## Skips (R110) -/

/-- The fetch phase's advance and a skip on top of it go four addresses on. -/
theorem State.skipIf_advance (s : State) (c : Bool) :
    s.advance.skipIf c = { s with pc := if c then s.pc + 4 else s.pc + 2 } := by
  rw [State.skipIf_eq, State.advance_pc, BitVec.add_assoc]
  rfl

theorem State.skipIf_beq_advance (s : State) (a b : Byte) :
    s.advance.skipIf (a == b) = { s with pc := if a = b then s.pc + 4 else s.pc + 2 } := by
  simp only [State.skipIf_advance, beq_iff_eq]

theorem State.skipIf_bne_advance (s : State) (a b : Byte) :
    s.advance.skipIf (a != b) = { s with pc := if a = b then s.pc + 2 else s.pc + 4 } := by
  simp only [State.skipIf_advance, bne_iff_ne, ite_not]

end Sys2Proof.Machine

section
open Sys2Proof Sys2Proof.Machine

/-- Settles O28, by the depth of the stack. -/
theorem returnPopsTheCallStack : Obligations.ReturnPopsTheCallStack :=
  fun _ => ⟨fun _ h => ⟨_, exec_ret_of_sp_eq_succ h, rfl, rfl, rfl⟩, exec_ret_of_sp_eq_zero⟩

/-- Settles O29: an address and its sum with a byte fit in pc. -/
theorem jumpsSetPc : Obligations.JumpsSetPc :=
  fun nnn s => ⟨⟨_, rfl, rfl, toNat_addrWord nnn⟩, ⟨_, rfl, rfl, toNat_addrWord_add_byteWord nnn (s.reg 0)⟩⟩

/-- Settles O30, by the depth of the stack; the push writes the entry at that depth alone. -/
theorem callPushesTheReturnAddress : Obligations.CallPushesTheReturnAddress := by
  refine fun nnn s => ⟨fun k h => ?_, exec_call_of_sp_eq_sixteen⟩
  refine ⟨_, exec_call_of_sp_eq h, rfl, toNat_addrWord nnn, rfl, Vector.getElem_set_self _, fun j hj => ?_⟩
  exact Vector.getElem_set_ne k.isLt j.isLt (Fin.val_ne_of_ne hj.symm)

/-- Settles O31: the return takes back the entry that the call has written. -/
theorem callThenReturnResumesAfterTheCall : Obligations.CallThenReturnResumesAfterTheCall := by
  intro nnn s h
  have hcall := exec_call_of_sp_eq (k := ⟨s.sp.val, h⟩) (nnn := nnn) rfl
  refine ⟨_, _, hcall, exec_ret_of_sp_eq_succ rfl, Vector.getElem_set_self _, rfl, rfl, fun j => ?_⟩
  exact (Vector.getElem_set h j.isLt).trans (if_congr eq_comm rfl rfl)

/-- Settles O32: a skip goes by the comparison of Vx with nn. -/
theorem skipOnImmediate : Obligations.SkipOnImmediate :=
  fun x nn s => ⟨congrArg _ (s.skipIf_beq_advance (s.reg x) nn), congrArg _ (s.skipIf_bne_advance (s.reg x) nn)⟩

/-- Settles O33: a skip goes by the comparison of Vx with Vy. -/
theorem skipOnRegisters : Obligations.SkipOnRegisters :=
  fun x y s =>
    ⟨congrArg _ (s.skipIf_beq_advance (s.reg x) (s.reg y)), congrArg _ (s.skipIf_bne_advance (s.reg x) (s.reg y))⟩

end

/-! # Register arithmetic: loads, arithmetic, logic, shifts and the random byte (rules R130 to R144) -/

namespace Sys2Proof.Machine

/-! ## Writing registers after the advance -/

section
variable {s t : State}

theorem KeepsAllButRegs.advance (s : State) : KeepsAllButRegs s s.advance := ⟨rfl, fun _ => rfl⟩

theorem KeepsAllButRegs.setReg (h : KeepsAllButRegs s t) (x : RegIdx) (v : Byte) :
    KeepsAllButRegs s (t.setReg x v) := by
  obtain ⟨hfields, hbytes⟩ := h
  refine ⟨?_, hbytes⟩
  rw [hfields]
  rfl

/-- An instruction that advances and writes the value `v` to Vx changes nothing else, whatever is claimed of `v`. -/
theorem exec_setReg_advance {i : Instr} {x : RegIdx} {v : Byte} (h : exec i s = .next (s.advance.setReg x v))
    (P : Byte → Prop) (hv : P v) :
    ∃ t, exec i s = .next t ∧ KeepsAllButRegs s t ∧ t.pc = s.pc + 2 ∧ P (t.reg x) ∧ ∀ z, z ≠ x → t.reg z = s.reg z := by
  refine ⟨_, h, (KeepsAllButRegs.advance s).setReg x v, rfl, ?_, fun z hz => State.reg_setReg_ne _ hz v⟩
  rwa [State.reg_setReg_same]

end

/-! ## A flag written first, as 8xy5, 8xy6, 8xy7 and 8xyE do (R131, D9) -/

/-- The state between the two halves of such an instruction: VF holds the flag `f`. -/
def State.flagged (s : State) (f : Byte) : State := s.advance.setReg 15 f

/-- The state after both halves: Vx takes the value `op` of Vx and Vy, each read after the flag is written. -/
def State.flagThen (s : State) (f : Byte) (op : Byte → Byte → Byte) (x y : RegIdx) : State :=
  (s.flagged f).setReg x (op ((s.flagged f).reg x) ((s.flagged f).reg y))

section
variable (s : State) (x y : RegIdx)

theorem exec_sub : exec (.sub x y) s =
    .next (s.flagThen (greaterFlag (s.reg x) (s.reg y)) (fun a b => a - b) x y) := rfl

theorem exec_subn : exec (.subn x y) s =
    .next (s.flagThen (greaterFlag (s.reg y) (s.reg x)) (fun a b => b - a) x y) := rfl

/-- A shift has one operand, Vx, whatever its field y (R87, R140). -/
theorem exec_shr : exec (.shr x y) s = .next (s.flagThen (lowBitFlag (s.reg x)) (fun a _ => a >>> 1) x x) := rfl

theorem exec_shl : exec (.shl x y) s = .next (s.flagThen (highBitFlag (s.reg x)) (fun a _ => a <<< 1) x x) := rfl

end

section
variable {s : State} {f : Byte} {op : Byte → Byte → Byte} {x y z : RegIdx}

@[simp] theorem State.reg_flagged_VF : (s.flagged f).reg 15 = f := State.reg_setReg_same _ 15 f

theorem State.reg_flagged_ne (hz : z ≠ 15) : (s.flagged f).reg z = s.reg z := State.reg_setReg_ne _ hz f

theorem State.flagThen_keeps : KeepsAllButRegs s (s.flagThen f op x y) :=
  ((KeepsAllButRegs.advance s).setReg 15 f).setReg x _

@[simp] theorem State.flagThen_pc : (s.flagThen f op x y).pc = s.pc + 2 := rfl

theorem State.reg_flagThen_ne (hx : z ≠ x) (hf : z ≠ 15) : (s.flagThen f op x y).reg z = s.reg z :=
  (State.reg_setReg_ne _ hx _).trans (State.reg_flagged_ne hf)

/-- The flag survives when Vx is not VF. -/
theorem State.reg_flagThen_VF (hx : x ≠ 15) : (s.flagThen f op x y).reg 15 = f :=
  (State.reg_setReg_ne _ hx.symm _).trans State.reg_flagged_VF

theorem State.reg_flagThen_dest : (s.flagThen f op x y).reg x = op ((s.flagged f).reg x) ((s.flagged f).reg y) :=
  State.reg_setReg_same _ x _

/-! What Vx takes in the four cases of VF as an operand. -/

theorem State.reg_flagThen_of_ne (hx : x ≠ 15) (hy : y ≠ 15) :
    (s.flagThen f op x y).reg x = op (s.reg x) (s.reg y) := by
  rw [State.reg_flagThen_dest, State.reg_flagged_ne hx, State.reg_flagged_ne hy]

theorem State.reg_flagThen_VF_left (hy : y ≠ 15) : (s.flagThen f op 15 y).reg 15 = op f (s.reg y) := by
  rw [State.reg_flagThen_dest, State.reg_flagged_VF, State.reg_flagged_ne hy]

theorem State.reg_flagThen_VF_right (hx : x ≠ 15) : (s.flagThen f op x 15).reg x = op (s.reg x) f := by
  rw [State.reg_flagThen_dest, State.reg_flagged_VF, State.reg_flagged_ne hx]

theorem State.reg_flagThen_VF_both : (s.flagThen f op 15 15).reg 15 = op f f := by
  rw [State.reg_flagThen_dest, State.reg_flagged_VF]

/-- The four cases at once, with the frame, for an operation that gives 0 on equal operands and that is `m` on numbers. -/
theorem State.flagThen_cases {m : Nat → Nat → Nat} (hop : ∀ a b, (op a b).toNat = m a.toNat b.toNat)
    (hself : ∀ a, op a a = 0) :
    (x ≠ 15 → y ≠ 15 → (s.flagThen f op x y).reg 15 = f ∧
      ((s.flagThen f op x y).reg x).toNat = m (s.reg x).toNat (s.reg y).toNat) ∧
    (x = 15 → y ≠ 15 → ((s.flagThen f op x y).reg 15).toNat = m f.toNat (s.reg y).toNat) ∧
    (x ≠ 15 → y = 15 → (s.flagThen f op x y).reg 15 = f ∧
      ((s.flagThen f op x y).reg x).toNat = m (s.reg x).toNat f.toNat) ∧
    (x = 15 → y = 15 → (s.flagThen f op x y).reg 15 = 0) ∧
    ∀ z, z ≠ x → z ≠ 15 → (s.flagThen f op x y).reg z = s.reg z := by
  refine ⟨fun hx hy => ⟨State.reg_flagThen_VF hx, ?_⟩, ?_, ?_, ?_, fun z hx hf => State.reg_flagThen_ne hx hf⟩
  · rw [State.reg_flagThen_of_ne hx hy, hop]
  · rintro rfl hy
    rw [State.reg_flagThen_VF_left hy, hop]
  · rintro hx rfl
    exact ⟨State.reg_flagThen_VF hx, by rw [State.reg_flagThen_VF_right hx, hop]⟩
  · rintro rfl rfl
    rw [State.reg_flagThen_VF_both, hself]

end

/-! ## The flags and the byte operations as numbers (R144) -/

theorem flagByte_decide (p : Prop) [Decidable p] : flagByte (decide p) = if p then 1 else 0 :=
  if_congr decide_eq_true_iff rfl rfl

theorem toNat_byte_sub (a b : Byte) : (a - b).toNat = (a.toNat + 256 - b.toNat) % 256 := by
  have hb := b.isLt
  rw [BitVec.toNat_sub]
  omega

theorem toNat_lowBitFlag (a : Byte) : (lowBitFlag a).toNat = a.toNat % 2 := by
  rw [lowBitFlag, BitVec.toNat_and]
  exact Nat.and_one_is_mod a.toNat

theorem toNat_highBitFlag (a : Byte) : (highBitFlag a).toNat = a.toNat / 128 := by
  rw [highBitFlag, BitVec.toNat_ushiftRight, Nat.shiftRight_eq_div_pow]

theorem toNat_byte_shiftRight_one (a : Byte) : (a >>> 1).toNat = a.toNat / 2 := by
  rw [BitVec.toNat_ushiftRight, Nat.shiftRight_eq_div_pow, Nat.pow_one]

theorem toNat_byte_shiftLeft_one (a : Byte) : (a <<< 1).toNat = a.toNat * 2 % 256 := by
  rw [BitVec.toNat_shiftLeft, Nat.shiftLeft_eq, Nat.pow_one]

end Sys2Proof.Machine

section
open Sys2Proof Sys2Proof.Machine

/-- Settles O39: the cases of a flagged operation, for the difference Vx - Vy. -/
theorem subtract : Obligations.Subtract := fun x y s =>
  ⟨_, _, exec_sub s x y, State.flagThen_keeps, State.flagThen_pc, flagByte_decide _,
    State.flagThen_cases (m := fun a b => (a + 256 - b) % 256) toNat_byte_sub BitVec.sub_self⟩

/-- Settles O40: the cases of a flagged operation, for the difference Vy - Vx. -/
theorem subtractReversed : Obligations.SubtractReversed := fun x y s =>
  ⟨_, _, exec_subn s x y, State.flagThen_keeps, State.flagThen_pc, flagByte_decide _,
    State.flagThen_cases (m := fun a b => (b + 256 - a) % 256) (fun a b => toNat_byte_sub b a) BitVec.sub_self⟩

/-- Settles O41: when Vx is VF, it is the flag, 0 or 1, that is halved. -/
theorem shiftRight : Obligations.ShiftRight := by
  intro x y s
  refine ⟨_, exec_shr s x y, State.flagThen_keeps, State.flagThen_pc, fun hx => ⟨?_, ?_⟩, ?_,
    fun z hx hf => State.reg_flagThen_ne hx hf⟩
  · rw [State.reg_flagThen_of_ne hx hx, toNat_byte_shiftRight_one]
  · rw [State.reg_flagThen_VF hx, toNat_lowBitFlag]
  · rintro rfl
    apply BitVec.eq_of_toNat_eq
    rw [State.reg_flagThen_VF_both, toNat_byte_shiftRight_one, toNat_lowBitFlag]
    exact Nat.div_eq_of_lt (Nat.mod_lt _ Nat.two_pos)

/-- Settles O42: when Vx is VF, it is the flag, 0 or 1, that is doubled. -/
theorem shiftLeft : Obligations.ShiftLeft := by
  intro x y s
  refine ⟨_, exec_shl s x y, State.flagThen_keeps, State.flagThen_pc, fun hx => ⟨?_, ?_⟩, ?_,
    fun z hx hf => State.reg_flagThen_ne hx hf⟩
  · rw [State.reg_flagThen_of_ne hx hx, toNat_byte_shiftLeft_one]
  · rw [State.reg_flagThen_VF hx, toNat_highBitFlag]
  · rintro rfl
    have hv := (s.reg 15).isLt
    rw [State.reg_flagThen_VF_both, toNat_byte_shiftLeft_one, toNat_highBitFlag]
    omega

/-- Settles O35: each load is one register write. -/
theorem registerLoads : Obligations.RegisterLoads := fun x y nn s =>
  ⟨exec_setReg_advance (i := .ldVxNn x nn) rfl (· = nn) rfl,
    exec_setReg_advance (i := .ldVxVy x y) rfl (· = s.reg y) rfl⟩

/-- Settles O36: one register write, of the sum. -/
theorem addImmediate : Obligations.AddImmediate := fun x nn s =>
  exec_setReg_advance (i := .addVxNn x nn) rfl (fun v => v.toNat = ((s.reg x).toNat + nn.toNat) % 256)
    (BitVec.toNat_add _ _)

/-- Settles O37: each operation is one register write, of a value given bit by bit. -/
theorem bitwiseLogic : Obligations.BitwiseLogic := fun x y s =>
  ⟨exec_setReg_advance (i := .or x y) rfl
      (fun v => ∀ b, v.getLsbD b = ((s.reg x).getLsbD b || (s.reg y).getLsbD b)) fun _ => BitVec.getLsbD_or,
    exec_setReg_advance (i := .and x y) rfl
      (fun v => ∀ b, v.getLsbD b = ((s.reg x).getLsbD b && (s.reg y).getLsbD b)) fun _ => BitVec.getLsbD_and,
    exec_setReg_advance (i := .xor x y) rfl
      (fun v => ∀ b, v.getLsbD b = xor ((s.reg x).getLsbD b) ((s.reg y).getLsbD b)) fun _ => BitVec.getLsbD_xor⟩

/-- Settles O38: the carry is written last, so the sum survives when Vx is not VF. -/
theorem addWithCarry : Obligations.AddWithCarry := by
  intro x y s
  refine ⟨_, rfl, ((KeepsAllButRegs.advance s).setReg x _).setReg 15 _, rfl, fun hx => ?_, ?_, fun z hx hf => ?_⟩
  · rw [State.reg_setReg_ne _ hx, State.reg_setReg_same, BitVec.toNat_add]
  · rw [State.reg_setReg_same]
    exact flagByte_decide _
  · rw [State.reg_setReg_ne _ hf, State.reg_setReg_ne _ hx, State.reg_advance]

/-- Settles O43: the conjunction with nn has no bit that nn has not, whatever the drawn byte. -/
theorem randomByteIsMasked : Obligations.RandomByteIsMasked := by
  intro x nn s
  have hreg : (s.advance.drawByte.2.setReg x (Config.draw8 s.draws &&& nn)).reg x = Config.draw8 s.draws &&& nn :=
    State.reg_setReg_same _ x _
  refine ⟨_, rfl, rfl, hreg, fun b hb => ?_, ?_, fun z hz => State.reg_setReg_ne _ hz _⟩
  · rw [State.reg_setReg_same, BitVec.getLsbD_and, Bool.and_eq_true] at hb
    exact hb.2
  · rintro rfl
    exact hreg.trans BitVec.and_zero

end

/-! # Index register, loads and stores: the bytes at I and the faults past the end of memory (rules R150 to R158) -/

namespace Sys2Proof.Machine

/-! ## Values written to I (R152, R153) -/

theorem toNat_add_byteWord (w : Word) (v : Byte) : (w + byteWord v).toNat = (w.toNat + v.toNat) % 65536 := by
  rw [BitVec.toNat_add, toNat_byteWord]

/-- No reduction: the highest glyph address is 255 * 5. -/
theorem toNat_glyphAddr (v : Byte) : (glyphAddr v).toNat = v.toNat * 5 := by
  have := v.isLt
  exact Nat.mod_eq_of_lt (by omega)

/-! ## Fx33: the digits at I, I + 1 and I + 2 (R155) -/

/-- Each digit fits in a byte, so its byte is the digit. -/
theorem toNat_decimalDigits (v : Byte) :
    (decimalDigits v).map BitVec.toNat = [v.toNat / 100, v.toNat / 10 % 10, v.toNat % 10] := by
  have := v.isLt
  simp (disch := omega) only [decimalDigits, List.map_cons, List.map_nil, BitVec.toNat_ofNat, Nat.mod_eq_of_lt]

/-- Stores from I upward leave byte `k` of the list at I + k. -/
theorem State.byteAt_writeList_effAddr (s : State) {bs : List Byte} {k : Nat} (hk : k < bs.length) :
    State.byteAt { s with mem := Memory.writeList s.config s.mem (s.effAddr 0) bs } (s.effAddr k) = bs[k] := by
  have hle : s.effAddr 0 ≤ s.effAddr k := Nat.add_le_add_left (Nat.zero_le k) _
  have hoff : s.effAddr k - s.effAddr 0 = k := Nat.add_sub_cancel_left ..
  rw [State.byteAt_writeList, if_pos hle, hoff, List.getElem?_eq_getElem hk, Option.getD_some]

section
variable {x : RegIdx} {s : State}

/-- Fx33 with its last address inside memory completes, changes memory and pc alone, and leaves the digits at
I upward. -/
theorem exec_ldBVx_of_fits (h : s.effAddr 2 ≤ 4095) :
    ∃ t, exec (.ldBVx x) s = .next t ∧ t = { s with mem := t.mem, pc := s.pc + 2 } ∧
      ∀ k (hk : k < 3), (t.byteAt (s.effAddr k)).toNat =
        [(s.reg x).toNat / 100, (s.reg x).toNat / 10 % 10, (s.reg x).toNat % 10][k] := by
  refine ⟨_, congrArg (s.finish _) (State.storeBytes_ok s.advance _ (Nat.succ_le_succ h)), rfl, fun k hk => ?_⟩
  simp only [← toNat_decimalDigits, List.getElem_map]
  exact congrArg _ (State.byteAt_writeList_effAddr s.advance hk)

/-! ## Fx65 where it completes (R157) -/

/-- Fx65 with its last address inside memory completes, changes V and pc alone, and in V loads V0 to Vx. -/
theorem exec_ldVxMem_of_fits (h : s.effAddr x.toNat ≤ 4095) :
    ∃ t, exec (.ldVxMem x) s = .next t ∧ t = { s with V := t.V, pc := s.pc + 2 } ∧
      (∀ z : RegIdx, z.toNat ≤ x.toNat → t.reg z = s.byteAt (s.effAddr z.toNat)) ∧
      ∀ z : RegIdx, x.toNat < z.toNat → t.reg z = s.reg z := by
  have hfits : s.effAddr 0 + (regsUpTo x).length ≤ 4096 := by
    rw [length_regsUpTo]
    exact Nat.succ_le_succ h
  obtain ⟨t, hload, ht, hkept, hloaded⟩ := State.loadRegs_ok s.advance (regsUpTo x) hfits
  refine ⟨t, congrArg (s.finish _) hload, ht, fun z hz => ?_, fun z hz => hkept z (mt mem_regsUpTo.mp hz.not_ge)⟩
  have hlen : z.toNat < (regsUpTo x).length := by
    rw [length_regsUpTo]
    exact Nat.lt_succ_of_le hz
  have hbyte := hloaded (nodup_regsUpTo x) z.toNat hlen
  rwa [getElem_regsUpTo, BitVec.ofNat_toNat, BitVec.setWidth_eq] at hbyte

/-! ## Accesses past the end of memory (R65, R203) -/

/-- The state in which the instruction `i` at `s.pc` has faulted on its first address above 4095, from I upward. -/
def State.pastMemory (s : State) (i : Instr) : State :=
  s.afterFault (.addressOutOfRange (.mem (max s.I.toNat 4096))) (some s.pc) (some (encode i))

theorem exec_ldBVx_of_past (h : 4095 < s.effAddr 2) : exec (.ldBVx x) s = .next (s.pastMemory (.ldBVx x)) :=
  congrArg (s.finish _) (State.storeBytes_error s.advance _ (Nat.succ_lt_succ h) (List.cons_ne_nil _ _))

theorem exec_ldMemVx_of_past (h : 4095 < s.effAddr x.toNat) :
    exec (.ldMemVx x) s = .next (s.pastMemory (.ldMemVx x)) := by
  have hpast : 4096 < s.effAddr 0 + ((regsUpTo x).map s.reg).length := by
    rw [List.length_map, length_regsUpTo]
    exact Nat.succ_lt_succ h
  have hne : (regsUpTo x).map s.reg ≠ [] := mt List.map_eq_nil_iff.mp (regsUpTo_ne_nil x)
  exact congrArg (s.finish _) (State.storeBytes_error s.advance _ hpast hne)

theorem exec_ldVxMem_of_past (h : 4095 < s.effAddr x.toNat) :
    exec (.ldVxMem x) s = .next (s.pastMemory (.ldVxMem x)) := by
  have hpast : 4096 < s.effAddr 0 + (regsUpTo x).length := by
    rw [length_regsUpTo]
    exact Nat.succ_lt_succ h
  exact congrArg (s.finish _) (State.loadRegs_error s.advance _ hpast (regsUpTo_ne_nil x))

end

end Sys2Proof.Machine

section
open Sys2Proof Sys2Proof.Machine

/-- Settles O44: each write is of a 16-bit value whose number is given. -/
theorem indexRegisterWrites : Obligations.IndexRegisterWrites := fun nnn x s =>
  ⟨⟨_, rfl, rfl, toNat_addrWord nnn⟩, ⟨_, rfl, rfl, toNat_add_byteWord s.I (s.reg x)⟩,
    ⟨_, rfl, rfl, toNat_glyphAddr (s.reg x)⟩⟩

/-- Settles O45: its meaning is the fetch phase's advance alone. -/
theorem reservedInstructionDoesNothing : Obligations.ReservedInstructionDoesNothing := fun _ _ => rfl

/-- Settles O46: the stores leave the digits at I upward, and the frame keeps every other byte. -/
theorem storeDecimalDigits : Obligations.StoreDecimalDigits := by
  refine fun x s => ⟨fun h => ?_, exec_ldBVx_of_past⟩
  obtain ⟨t, hexec, ht, hbyte⟩ := exec_ldBVx_of_fits (x := x) h
  exact ⟨t, hexec, ht, hbyte 0 (by decide), hbyte 1 (by decide), hbyte 2 (by decide), (exec_frame hexec).byteAt⟩

/-- Settles O47: the stores leave Vk at I + k, and the frame keeps every other byte. -/
theorem storeRegisters : Obligations.StoreRegisters := by
  refine fun x s => ⟨fun h => ?_, exec_ldMemVx_of_past⟩
  obtain ⟨t, hexec, ht, hbyte⟩ := exec_ldMemVx_of_fits h
  refine ⟨t, hexec, ht, fun z hz => ?_, fun a ha => ?_⟩
  · rw [hbyte z.toNat hz, BitVec.ofNat_toNat, BitVec.setWidth_eq]
  · exact (exec_frame hexec).byteAt a fun k hk => ha k (Nat.le_of_lt_succ hk)

/-- Settles O48: the loads write V0 to Vx, and nothing that a byte of memory is read from changes. -/
theorem loadRegisters : Obligations.LoadRegisters := by
  refine fun x s => ⟨fun h => ?_, exec_ldVxMem_of_past⟩
  obtain ⟨t, hexec, ht, hloaded, hkept⟩ := exec_ldVxMem_of_fits h
  have hpc : t.pc = s.pc + 2 := by rw [ht]
  exact ⟨t, hexec, ⟨by rwa [hpc], fun a => by rw [ht]; rfl⟩, hpc, hloaded, hkept⟩

end

/-! # Keys and timers: what a row of ticks does, skips on a key, timer access and the wait for a key
(rules R171 to R176, R210) -/

namespace Sys2Proof.Machine

/-! ## Ticks in a row (R210) -/

/-- The value of a timer `k` ticks on: it stops at 0. -/
def countDown (v : Byte) (k : Nat) : Byte := BitVec.ofNat 8 (v.toNat - k)

/-- What `k` ticks put out when the sound timer holds `v`: one Beep if they take it from a non-zero value to 0. -/
def beepsWithin (v : Byte) (k : Nat) : List Output := if 1 ≤ v.toNat ∧ v.toNat ≤ k then [.beep] else []

/-- The state of a Running core `k` ticks on. -/
def State.afterTicks (s : State) (k : Nat) : State :=
  { s with DT := countDown s.DT k, ST := countDown s.ST k, outputs := s.outputs ++ beepsWithin s.ST k }

@[simp] theorem toNat_countDown (v : Byte) (k : Nat) : (countDown v k).toNat = v.toNat - k := by
  have := v.isLt
  exact Nat.mod_eq_of_lt (by omega)

@[simp] theorem countDown_zero (v : Byte) : countDown v 0 = v := by
  apply BitVec.eq_of_toNat_eq
  simp

theorem countDown_countDown (v : Byte) (j k : Nat) : countDown (countDown v j) k = countDown v (j + k) := by
  apply BitVec.eq_of_toNat_eq
  simp [Nat.sub_sub]

@[simp] theorem beepsWithin_zero (v : Byte) : beepsWithin v 0 = [] := if_neg (by omega)

/-- ST reaches 0 in the first `j` ticks, in the `k` after them, or in neither, never in both. -/
theorem beepsWithin_append (v : Byte) (j k : Nat) :
    beepsWithin v j ++ beepsWithin (countDown v j) k = beepsWithin v (j + k) := by
  simp only [beepsWithin, toNat_countDown]
  by_cases hj : 1 ≤ v.toNat ∧ v.toNat ≤ j
  · rw [if_pos hj, if_neg (by omega), if_pos (by omega), List.append_nil]
  · rw [if_neg hj, List.nil_append]
    exact if_congr (by omega) rfl rfl

@[simp] theorem State.afterTicks_zero (s : State) : s.afterTicks 0 = s := by simp [State.afterTicks]

theorem State.afterTicks_afterTicks (s : State) (j k : Nat) : (s.afterTicks j).afterTicks k = s.afterTicks (j + k) := by
  simp only [State.afterTicks, countDown_countDown, List.append_assoc, beepsWithin_append]

@[simp] theorem zero_countDown (k : Nat) : countDown 0 k = 0 := by
  apply BitVec.eq_of_toNat_eq
  simp

theorem countDown_one_of_ne_zero {v : Byte} (h : v ≠ 0) : countDown v 1 = v - 1 := by
  apply BitVec.eq_of_toNat_eq
  rw [toNat_countDown]
  bv_omega

theorem beepsWithin_one (v : Byte) : beepsWithin v 1 = if v = 1 then [.beep] else [] :=
  if_congr (by bv_omega) rfl rfl

theorem State.tickDelay_eq_countDown (s : State) : s.tickDelay = s.setDT (countDown s.DT 1) := by
  unfold State.tickDelay
  split
  · next h =>
    rw [h, zero_countDown, ← h]
    rfl
  · next h => rw [countDown_one_of_ne_zero h]

/-- The three cases of R210: ST is 0, 1 or more. -/
theorem State.tickSound_eq_countDown (s : State) :
    s.tickSound = { s with ST := countDown s.ST 1, outputs := s.outputs ++ beepsWithin s.ST 1 } := by
  rw [beepsWithin_one]
  unfold State.tickSound
  split
  · next h =>
    rw [h, zero_countDown, if_neg (by decide), List.append_nil, ← h]
  · split
    · next h =>
      rw [h]
      rfl
    · next h0 _ =>
      rw [countDown_one_of_ne_zero h0, List.append_nil]
      rfl

theorem timerTick_of_running {s : State} (h : s.run = .running) : timerTick s = s.afterTicks 1 := by
  simp only [timerTick, h]
  rw [State.tickDelay_eq_countDown, State.tickSound_eq_countDown]
  rfl

/-- By induction on the number of ticks, the last one split off. -/
theorem timerTick_iterate_of_running {s : State} (h : s.run = .running) (k : Nat) :
    timerTick^[k] s = s.afterTicks k := by
  induction k with
  | zero => exact s.afterTicks_zero.symm
  | succ k ih =>
    have hrun : (s.afterTicks k).run = .running := h
    rw [Function.iterate_succ_apply', ih, timerTick_of_running hrun, State.afterTicks_afterTicks]

/-! ## Skips on a key (R171, R172) -/

section
variable {x : RegIdx} {s : State}

/-- A value that is a key's number selects that key's flag. -/
theorem State.skipOnKey_advance_of_key {v : Byte} {k : Fin 16} (h : v.toNat = k.val) (pressed : Bool) :
    s.advance.skipOnKey v pressed =
      .ok { s with pc := if isPressed k s = pressed then s.pc + 4 else s.pc + 2 } := by
  have hkey : keyOfValue v = some k := (keyOfValue_some (h ▸ k.isLt)).trans (congrArg some (Fin.ext h))
  simp only [State.skipOnKey, hkey, State.skipIf_advance, beq_iff_eq]
  rfl

theorem State.skipOnKey_of_not_key {v : Byte} (h : 15 < v.toNat) (pressed : Bool) :
    s.skipOnKey v pressed = .error (.addressOutOfRange (.key v.toNat)) := by
  simp only [State.skipOnKey, keyOfValue_none (Nat.not_lt.mpr h)]

theorem exec_skp_of_key {k : Fin 16} (h : (s.reg x).toNat = k.val) :
    exec (.skp x) s = .next { s with pc := if isPressed k s = true then s.pc + 4 else s.pc + 2 } :=
  congrArg (s.finish _) (State.skipOnKey_advance_of_key h true)

theorem exec_sknp_of_key {k : Fin 16} (h : (s.reg x).toNat = k.val) :
    exec (.sknp x) s = .next { s with pc := if isPressed k s = true then s.pc + 2 else s.pc + 4 } := by
  have hskip := State.skipOnKey_advance_of_key (s := s) h false
  simp only [← Bool.not_eq_true, ite_not] at hskip
  exact congrArg (s.finish _) hskip

/-! ## The wait for a key (R174) -/

/-- The rewind takes back the fetch phase's advance. -/
theorem exec_ldVxK_of_firstKey_none (h : s.firstKey = none) : exec (.ldVxK x) s = .next s := by
  have hkey : s.advance.firstKey = none := h
  have hwait : s.advance.waitKey x = s := by
    simp only [State.waitKey, hkey, State.advance_pc, BitVec.add_sub_cancel]
    rfl
  exact congrArg Host.Outcome.next hwait

theorem exec_ldVxK_of_firstKey_some {k : Fin 16} (h : s.firstKey = some k) :
    exec (.ldVxK x) s = .next (setPressed k false (s.advance.setReg x (BitVec.ofNat 8 k.val))) := by
  have hkey : s.advance.firstKey = some k := h
  show Host.Outcome.next (s.advance.waitKey x) = _
  simp only [State.waitKey, hkey]
  rfl

theorem toNat_ofNat_key (k : Fin 16) : (BitVec.ofNat 8 k.val).toNat = k.val :=
  Nat.mod_eq_of_lt (k.isLt.trans (by decide))

end

end Sys2Proof.Machine

section
open Sys2Proof Sys2Proof.Machine

/-- Settles O22: the ticks add up to one countdown of `k`. -/
theorem soundTimerBeepsOnce : Obligations.SoundTimerBeepsOnce := fun s k h =>
  ⟨_, (timerTick_iterate_of_running h k).symm, rfl, toNat_countDown s.DT k, toNat_countDown s.ST k, rfl⟩

/-- Settles O50: by the key that the value selects, or that there is none. -/
theorem skipOnKey : Obligations.SkipOnKey := fun _ s =>
  ⟨fun _ h => ⟨exec_skp_of_key h, exec_sknp_of_key h⟩, fun h =>
    ⟨congrArg (s.finish _) (State.skipOnKey_of_not_key h true),
      congrArg (s.finish _) (State.skipOnKey_of_not_key h false)⟩⟩

/-- Settles O51: one register write, and one write of each timer. -/
theorem timerAccess : Obligations.TimerAccess := fun x s =>
  ⟨exec_setReg_advance (i := .ldVxDt x) rfl (· = s.DT) rfl, rfl, rfl⟩

/-- Settles O52: the key found is the lowest one pressed; its number goes to Vx and its flag alone is written. -/
theorem waitForKey : Obligations.WaitForKey := by
  refine fun x s => ⟨fun hnone => exec_ldVxK_of_firstKey_none (State.firstKey_none hnone), fun k hk hlow => ?_⟩
  refine ⟨_, exec_ldVxK_of_firstKey_some (State.firstKey_some hk hlow), rfl, ?_, fun z hz => ?_, ?_, fun j hj => ?_⟩
  · exact (congrArg BitVec.toNat (State.reg_setReg_same s.advance x _)).trans (toNat_ofNat_key k)
  · exact State.reg_setReg_ne s.advance hz _
  · rw [isPressed_setPressed, if_pos rfl]
  · rw [isPressed_setPressed, if_neg hj]
    rfl

end

/-! # Faults: an instruction completes or leaves its fault alone, a faulted core stays Halted, unknown opcodes, and one
timer tick (rules R41, R201, R203, R204, R206, R210) -/

namespace Sys2Proof.Machine

/-! ## What a completed instruction leaves of run, record and outputs (R203) -/

/-- `t` has the run state, the fault record and the outputs of `s`: nothing was raised or put out from `s` to `t`. -/
def State.KeepsStatus (s t : State) : Prop := t.run = s.run ∧ t.fault = s.fault ∧ t.outputs = s.outputs

/-- `i` took `s` to `t` without a fault, or it may raise one, and `t` is `s` with that fault taken. -/
def PreciseAfter (i : Instr) (s t : State) : Prop :=
  s.KeepsStatus t ∨ (mayFault i = true ∧ ∃ c, t = s.afterFault c (some s.pc) (some (encode i)))

/-- A fault is taken from the state before the cycle, so a cycle that may raise need only be looked at where it
completes. -/
theorem PreciseAfter.of_finish {i : Instr} {s t : State} {r : Except Cause State}
    (h : s.finish (encode i) r = .next t) (hi : mayFault i = true) (hr : ∀ u, r = .ok u → s.KeepsStatus u) :
    PreciseAfter i s t := by
  rcases State.finish_cases h with hok | ⟨c, -, rfl⟩
  · exact .inl (hr t hok)
  · exact .inr ⟨hi, c, rfl⟩

theorem execRet_precise {s t : State} (h : execRet s = .next t) : PreciseAfter .ret s t := by
  refine PreciseAfter.of_finish h rfl fun u hu => ?_
  split at hu
  · next w v hpop =>
    obtain ⟨_, -, rfl⟩ := State.pop_cases hpop
    cases hu
    exact ⟨rfl, rfl, rfl⟩
  · cases hu

theorem execCall_precise {nnn : Addr} {s t : State} (h : execCall nnn s = .next t) : PreciseAfter (.call nnn) s t := by
  refine PreciseAfter.of_finish h rfl fun u hu => ?_
  split at hu
  · next v hpush =>
    obtain ⟨_, rfl⟩ := State.push_cases hpush
    cases hu
    exact ⟨rfl, rfl, rfl⟩
  · cases hu

theorem execDrw_precise {x y : RegIdx} {n : Nibble} {s t : State} (h : execDrw x y n s = .next t) :
    PreciseAfter (.drw x y n) s t := by
  refine PreciseAfter.of_finish h rfl fun u hu => ?_
  split at hu
  · cases hu
    exact ⟨rfl, rfl, rfl⟩
  · cases hu

theorem State.skipIf_keepsStatus (s : State) (c : Bool) : s.KeepsStatus (s.advance.skipIf c) := by
  rw [State.skipIf_eq]
  exact ⟨rfl, rfl, rfl⟩

theorem State.skipOnKey_keepsStatus {s u : State} {v : Byte} {b : Bool} (h : s.advance.skipOnKey v b = .ok u) :
    s.KeepsStatus u := by
  obtain ⟨k, -, rfl⟩ := State.skipOnKey_cases h
  exact s.skipIf_keepsStatus _

theorem State.storeBytes_keepsStatus {s u : State} {a : Nat} {bs : List Byte} (h : s.advance.storeBytes a bs = .ok u) :
    s.KeepsStatus u := by
  rw [State.storeBytes_cases h]
  exact ⟨rfl, rfl, rfl⟩

theorem State.loadRegs_keepsStatus {s u : State} {a : Nat} {ks : List RegIdx} (h : s.advance.loadRegs a ks = .ok u) :
    s.KeepsStatus u := by
  obtain ⟨⟨V, rfl⟩, -⟩ := State.loadRegs_cases h
  exact ⟨rfl, rfl, rfl⟩

theorem State.waitKey_keepsStatus (s : State) (x : RegIdx) : s.KeepsStatus (s.advance.waitKey x) := by
  rcases State.waitKey_cases s.advance x with ⟨-, hw⟩ | ⟨k, -, hw⟩ <;> rw [hw]
  · exact ⟨rfl, rfl, rfl⟩
  · exact ⟨rfl, rfl, rfl⟩

/-- The eight instructions that may raise are those whose meaning ends in `finish`; every other one completes. -/
theorem exec_precise {i : Instr} {s t : State} (h : exec i s = .next t) : PreciseAfter i s t := by
  cases i
  case ret => exact execRet_precise h
  case call nnn => exact execCall_precise h
  case drw x y n => exact execDrw_precise h
  case skp | sknp => exact PreciseAfter.of_finish h rfl fun _ => State.skipOnKey_keepsStatus
  case ldBVx | ldMemVx => exact PreciseAfter.of_finish h rfl fun _ => State.storeBytes_keepsStatus
  case ldVxMem => exact PreciseAfter.of_finish h rfl fun _ => State.loadRegs_keepsStatus
  case ldVxK x => cases h; exact .inl (s.waitKey_keepsStatus x)
  case seVxNn | sneVxNn | seVxVy | sneVxVy => cases h; exact .inl (s.skipIf_keepsStatus _)
  -- Every other instruction writes registers and fields that are none of the three.
  all_goals
    cases h
    exact .inl ⟨rfl, rfl, rfl⟩

/-! ## Unknown opcodes (R206) -/

theorem unknownOpcode_of_strict {s : State} (w : Word) (h : s.config.strictDecode = true) :
    unknownOpcode w s = s.takeFault (.unknownOpcode w) (some s.pc) (some w) := if_pos h

theorem unknownOpcode_of_not_strict {s : State} (w : Word) (h : s.config.strictDecode = false) :
    unknownOpcode w s = s.advance.emit (.report s.pc w) := if_neg (ne_true_of_eq_false h)

theorem cycle_of_decode_error {s : State} {w : Word} {e : DecodeError} (hrun : s.run = .running)
    (hfetch : s.fetch = .ok w) (hdec : decode w = .error e) : cycle s = .next (unknownOpcode w s) := by
  simp only [cycle, hrun, hfetch, runWord, hdec]

/-- A word that decodes selects the row of its instruction, so a word that selects none does not decode. -/
theorem decode_error_of_selects_none {w : Word} (h : ∀ r ∈ opcodeRows, r.selects w = false) :
    ∃ e, decode w = .error e := by
  cases hdec : decode w with
  | error e => exact ⟨e, rfl⟩
  | ok i =>
    obtain ⟨r, hr, -, hsel⟩ := encodeRow i
    rw [encode_of_decode hdec, h r hr] at hsel
    cases hsel

/-! ## A core with a fault record stays Halted (R203, R204) -/

theorem State.FaultHalts.of_halted {s : State} (h : s.run = .halted) : s.FaultHalts := fun _ => h

theorem State.FaultHalts.of_safe {s : State} (h : s.Safe) : s.FaultHalts := fun hf => absurd h hf

/-- FaultHalts speaks of the run state and the record only. -/
theorem State.FaultHalts.of_eq {s t : State} (hs : s.FaultHalts) (hrun : t.run = s.run) (hfault : t.fault = s.fault) :
    t.FaultHalts := by
  unfold State.FaultHalts
  rwa [hrun, hfault]

theorem exec_faultHalts {i : Instr} {s t : State} (h : exec i s = .next t) (hs : s.FaultHalts) : t.FaultHalts := by
  rcases exec_precise h with ⟨hrun, hfault, -⟩ | ⟨-, c, rfl⟩
  · exact hs.of_eq hrun hfault
  · exact .of_halted rfl

theorem unknownOpcode_faultHalts {s : State} (w : Word) (hs : s.FaultHalts) : (unknownOpcode w s).FaultHalts := by
  cases hstrict : s.config.strictDecode with
  | false =>
    rw [unknownOpcode_of_not_strict w hstrict]
    exact hs
  | true =>
    rw [unknownOpcode_of_strict w hstrict]
    exact .of_halted rfl

theorem cycle_faultHalts {s t : State} (h : cycle s = .next t) (hs : s.FaultHalts) : t.FaultHalts := by
  obtain ⟨-, rfl⟩ | ⟨-, w, i, -, -, hexec⟩ | ⟨-, w, e, -, -, rfl⟩ | ⟨-, c, -, rfl⟩ := cycle_cases h
  · exact hs
  · exact exec_faultHalts hexec hs
  · exact unknownOpcode_faultHalts w hs
  · exact .of_halted rfl

/-- A load halts the core with its own record, or starts it with none (R243). -/
theorem loadProgram_faultHalts (bytes : List Byte) (s : State) : (loadProgram bytes s).FaultHalts := by
  unfold loadProgram
  split
  · exact .of_halted rfl
  · exact .of_safe rfl

theorem perform_faultHalts {m : Move} {s t : State} (h : perform m s = .next t) (hs : s.FaultHalts) :
    t.FaultHalts := by
  cases m
  case cycle => exact cycle_faultHalts h hs
  case timerTick =>
    cases h
    obtain ⟨dt, st, os, htick⟩ := timerTick_eq s
    rw [htick]
    exact hs
  case loadProgram bytes => cases h; exact loadProgram_faultHalts bytes s
  case hardReset | softReset => cases h; exact .of_safe rfl
  case setPressed | readFrame | clearDrawFlag => cases h; exact hs

end Sys2Proof.Machine

section
open Sys2Proof Sys2Proof.Machine

/-- Settles O59, by cases on the move: a move that writes the record to report a fault also halts the core, and a load,
the one move that sets Running, clears the record first. -/
theorem everyStepKeepsFaultedCoreHalted : Obligations.EveryStepKeepsFaultedCoreHalted := by
  intro s t hs h
  obtain ⟨m, ms, hperform⟩ := step_cases h
  exact perform_faultHalts hperform hs

/-- Settles O14, by cases on the instruction: the eight end in `finish`, which discards what a faulting cycle wrote. -/
theorem faultsArePrecise : Obligations.FaultsArePrecise :=
  fun _ _ _ => exec_precise

/-- Settles O10: the word does not decode, since it selects no row, and the cycle answers by the parameter. -/
theorem unknownOpcodeReportsOrFaults : Obligations.UnknownOpcodeReportsOrFaults := by
  refine ⟨rfl, fun s w hrun hsch hfetch hnone => ?_⟩
  obtain ⟨e, hdec⟩ := decode_error_of_selects_none hnone
  rw [step_of_schedule_nil hsch, cycle_of_decode_error hrun hfetch hdec]
  exact ⟨fun h => congrArg _ (unknownOpcode_of_not_strict w h), fun h => congrArg _ (unknownOpcode_of_strict w h)⟩

/-- Settles O21: one tick is a countdown of 1. -/
theorem timerTickEffect : Obligations.TimerTickEffect := fun s =>
  ⟨fun h => ⟨_, (timerTick_of_running h).symm, rfl, toNat_countDown s.DT 1, toNat_countDown s.ST 1,
    congrArg (s.outputs ++ ·) (beepsWithin_one s.ST)⟩, timerTick_of_halted⟩

end

/-! # Reset, loading a program, and the jump to itself (rules R112, R240 to R243, R246, R247) -/

namespace Sys2Proof.Machine

/-! ## States that hold the power-on memory (R240, R241) -/

theorem State.byteAt_font_of_powerOn {s : State} (h : s.mem = Memory.powerOn) (a : Fin 80) :
    s.byteAt a.val = s.config.font[a] := by
  rw [State.byteAt, h, Memory.read_powerOn, unlistedByte_of_lt s.config a.isLt]
  rfl

theorem State.byteAt_zero_of_powerOn {s : State} (h : s.mem = Memory.powerOn) {a : Nat} (ha : 80 ≤ a) :
    s.byteAt a = 0 := by
  rw [State.byteAt, h, Memory.read_powerOn, unlistedByte_of_ge s.config ha]

theorem getPixel_of_clearFb {s : State} (h : s.fb = clearFb) (x : Fin 64) (y : Fin 32) : getPixel x y s = false := by
  rw [getPixel, h, pixelAt_clearFb]

/-! ## Blocks of bytes in memory (R52) -/

section
variable (c : Config) (m : Memory) {bs : List Byte} {a b : Nat}

theorem Memory.writeBlock_error (h : 4096 < a + bs.length) :
    Memory.writeBlock c m bs a = .error (.addressOutOfRange (.mem 4096)) := if_pos h

/-- Below the block every byte reads as before. -/
theorem Memory.read_writeList_of_lt (h : b < a) :
    Memory.read c (Memory.writeList c m a bs) b = Memory.read c m b := by
  rw [Memory.read_writeList, if_neg h.not_ge]

/-- Past the end of the block every byte reads as before. -/
theorem Memory.read_writeList_of_ge (h : a + bs.length ≤ b) :
    Memory.read c (Memory.writeList c m a bs) b = Memory.read c m b := by
  have hlen : bs.length ≤ b - a := by omega
  rw [Memory.read_writeList, if_pos (by omega), List.getElem?_eq_none hlen, Option.getD_none]

/-- Byte `i` of the block is read back at its place. -/
theorem Memory.read_writeList_add (i : Fin bs.length) :
    Memory.read c (Memory.writeList c m a bs) (a + i.val) = bs[i] := by
  rw [Memory.read_writeList, if_pos (Nat.le_add_right a i.val), Nat.add_sub_cancel_left,
    List.getElem?_eq_getElem i.isLt, Option.getD_some]
  rfl

end

/-! ## Loading a program (R243, R246) -/

/-- The launch state of a program: `bytes` from 0x200 over the power-on memory, and Running (R243). -/
def launchState (bytes : List Byte) (s : State) : State :=
  { hardReset s with mem := Memory.writeList s.config Memory.powerOn 512 bytes, run := .running }

section
variable {bytes : List Byte} (s : State)

theorem loadProgram_of_fits (h : bytes.length ≤ 3584) : loadProgram bytes s = launchState bytes s := by
  have hfits : 512 + bytes.length ≤ 4096 := by omega
  simp only [loadProgram, Memory.writeBlock_ok _ _ hfits]
  rfl

theorem loadProgram_of_too_long (h : 3584 < bytes.length) :
    loadProgram bytes s = s.takeFault (.addressOutOfRange (.mem 4096)) none none := by
  have hlong : 4096 < 512 + bytes.length := by omega
  simp only [loadProgram, Memory.writeBlock_error _ _ hlong]

/-- Outside the program the launch state reads as hardReset's. -/
theorem byteAt_launchState_of_outside {a : Nat} (h : a < 512 ∨ 512 + bytes.length ≤ a) :
    (launchState bytes s).byteAt a = (hardReset s).byteAt a := by
  rcases h with hbelow | habove
  · exact Memory.read_writeList_of_lt s.config Memory.powerOn hbelow
  · exact Memory.read_writeList_of_ge s.config Memory.powerOn habove

theorem byteAt_launchState_program (i : Fin bytes.length) : (launchState bytes s).byteAt (512 + i.val) = bytes[i] :=
  Memory.read_writeList_add s.config Memory.powerOn i

end

/-! ## A jump to its own address (R112, R247) -/

/-- The jump takes back the fetch phase's advance. -/
theorem exec_jp_of_eq_pc {s : State} {nnn : Addr} (h : addrWord nnn = s.pc) : exec (.jp nnn) s = .next s := by
  show Host.Outcome.next (s.advance.setPc (addrWord nnn)) = _
  rw [h]
  rfl

end Sys2Proof.Machine

section
open Sys2Proof Sys2Proof.Machine

/-- Settles O19: a program that fits is written over hardReset's memory, and a longer one faults before anything is
written. -/
theorem loadProgramEffect : Obligations.LoadProgramEffect := by
  refine fun s bytes => ⟨fun hfits => ?_, loadProgram_of_too_long s⟩
  refine ⟨launchState bytes s, (loadProgram_of_fits s hfits).symm, rfl, fun a => ?_, fun a hfont hbelow => ?_,
    byteAt_launchState_program s, fun a habove _ => ?_, rfl⟩
  · rw [byteAt_launchState_of_outside s (.inl (by omega))]
    exact State.byteAt_font_of_powerOn (s := hardReset s) rfl a
  · rw [byteAt_launchState_of_outside s (.inl hbelow)]
    exact State.byteAt_zero_of_powerOn (s := hardReset s) rfl hfont
  · rw [byteAt_launchState_of_outside s (.inr habove)]
    exact State.byteAt_zero_of_powerOn (s := hardReset s) rfl (by omega)

/-- Settles O15: memory lists nothing, the display is clear, and every other field is a constant. -/
theorem powerOnState : Obligations.PowerOnState :=
  ⟨fun x => Vector.getElem_replicate x.isLt, rfl, rfl, rfl, fun k => Vector.getElem_replicate k.isLt, rfl, rfl,
    State.byteAt_font_of_powerOn rfl, fun _ ha _ => State.byteAt_zero_of_powerOn rfl ha, getPixel_of_clearFb rfl,
    fun k => Vector.getElem_replicate k.isLt, rfl, rfl, rfl⟩

/-- Settles O16: memory is the power-on one, the core is Halted, and it is where a softReset leaves pc and the stack. -/
theorem resetMeetsTheInvariants : Obligations.ResetMeetsTheInvariants :=
  ⟨Memory.reset_wf, .of_halted rfl, softReset_pcBounded State.reset⟩

/-- Settles O17: hardReset leaves the power-on memory, which reads as FONT and zeros. -/
theorem hardResetEffect : Obligations.HardResetEffect := fun s =>
  ⟨hardReset s, rfl, rfl, State.byteAt_font_of_powerOn (s := hardReset s) rfl,
    fun _ ha _ => State.byteAt_zero_of_powerOn (s := hardReset s) rfl ha⟩

/-- Settles O18: softReset writes neither memory nor the parameters, which are all that a byte's read depends on. -/
theorem softResetEffect : Obligations.SoftResetEffect := fun s =>
  ⟨softReset s, rfl, rfl, fun _ => rfl, getPixel_of_clearFb (s := softReset s) rfl, rfl, rfl⟩

/-- Settles O34: the cycle runs the jump that the word encodes, and its target is pc. -/
theorem selfJumpChangesNothing : Obligations.SelfJumpChangesNothing := by
  rintro s hrun hsch ⟨nnn, hfetch, hpc⟩
  rw [step_of_schedule_nil hsch, cycle_of_decode hrun hfetch (decode_encode _), exec_jp_of_eq_pc hpc]

end
